-- ==== Sys2Proof/Word.lean ====
section
/-! DEFINITION. The value types of the spec: bit patterns, never real numbers (00_scope R11). -/

namespace Sys2Proof

/-- One byte of the data memory (20_memory R50), and the command byte (30_encoding R81). -/
abbrev Byte := BitVec 8

/-- HalfValue: sign 15, exponent 14:10, mantissa 9:0 (10_state R20). -/
abbrev Half := BitVec 16

/-- SingleValue (10_state R21), and either 32-bit word of a DoubleValue (10_state R22). -/
abbrev Word := BitVec 32

end Sys2Proof
end

