-- ==== Sys2Proof/Config.lean ====
section
/-! DEFINITION. The parameters of the spec (00_scope R9) as plain data, and the free values. A machine's parameters stand in
its State (field `platform`) and no step changes them, so a statement about every state is a statement about every value of
them (log entry 1). -/

namespace Sys2Proof

/-- `BYTE_ORDER`: the order of the bytes inside a 2- or 4-byte unit (20_memory R53). -/
inductive ByteOrder where
  | little
  | big
  deriving DecidableEq, Repr

/-- A range of byte addresses, `base .. base + size - 1`. -/
structure Region where
  base : Nat
  size : Nat
  deriving DecidableEq, Repr

/-- The address lies in the range. -/
def Region.holds (r : Region) (a : Nat) : Bool :=
  decide (r.base ≤ a) && decide (a < r.base + r.size)

/-- The address lies in one of the ranges. -/
def inRegions (rs : List Region) (a : Nat) : Bool :=
  rs.any (fun r => r.holds a)

/-- The image of the double 1.0 in host memory, `w0` the word at the lower address (10_state R28). -/
structure Probe where
  w0 : Word
  w1 : Word
  deriving DecidableEq, Repr

/-- The parameters that are fixed for the life of the system (00_scope R9, R36). `accessible` and `notPlain` are predicates
on byte addresses (20_memory R60, P2 and P6), each held as a list of address ranges. -/
structure Platform where
  /-- `AW`, bits of a byte address. -/
  aw : Nat
  /-- `CW`, bits of the element count. -/
  cw : Nat
  byteOrder : ByteOrder
  /-- `H2D_NAN_HI`, the high word of the NaN that H2D produces (44 R183). -/
  h2dNanHi : Word
  accessible : List Region
  notPlain : List Region
  deriving DecidableEq, Repr

/-- `Accessible(a)` (20_memory R60, P2). -/
def Platform.isAccessible (p : Platform) (a : Nat) : Bool :=
  inRegions p.accessible a

/-- The byte is plain memory: a read returns the last value written and has no side effect (20_memory R60, P6). -/
def Platform.isPlain (p : Platform) (a : Nat) : Bool :=
  !inRegions p.notPlain a

/-- FREE VALUE: the content that an operand register, by its register number, holds after reset until it is written (10_state
R35, 93 U10 "any value"; held, 60 R245). It has no body; it is applied to a counter that reset advances, so that each reset
leaves contents of its own (log entry 4). -/
opaque Config.freeOperand : (epoch number : Nat) → Nat

end Sys2Proof
end

