-- ==== Sys2Proof/Syntax.lean ====
section
/-! DEFINITION. The commands (30_encoding R82), the actions of the host and of the platform (00_scope R17, 70 R264), and the
assembler lines (30_encoding R89). -/

namespace Sys2Proof

/-- The five commands, one constructor per row of the opcode table. `dp` and `sp` are the bits "destination buffer present"
and "source buffer present" (30_encoding R83); all other operands are in the registers `SRC`, `DST`, `COUNT` (R84). -/
inductive Instr where
  /-- `CAPCHK`, the explicit capability check (40 R107). -/
  | capchk
  /-- `CVT.S2H`, N singles to N halves (41 R130). -/
  | cvtS2H (dp sp : Bool)
  /-- `CVT.D2H`, N doubles to N halves (42 R150). -/
  | cvtD2H (dp sp : Bool)
  /-- `CVT.H2S`, N halves to N singles (43 R170). -/
  | cvtH2S (dp sp : Bool)
  /-- `CVT.H2D`, N halves to N doubles (44 R190). -/
  | cvtH2D (dp sp : Bool)
  deriving DecidableEq, Repr

/-- The four conversions (00_scope R14). -/
inductive Cvt where
  | s2h
  | d2h
  | h2s
  | h2d
  deriving DecidableEq, Repr

/-- The command of a conversion. -/
def Cvt.instr : Cvt → (dp sp : Bool) → Instr
  | .s2h, dp, sp => .cvtS2H dp sp
  | .d2h, dp, sp => .cvtD2H dp sp
  | .h2s, dp, sp => .cvtH2S dp sp
  | .h2d, dp, sp => .cvtH2D dp sp

/-- What the host and the platform do to the machine, one at a time (20_memory R65, 60 R246, 70 R260, R264). -/
inductive HostAction where
  /-- The host writes `value` to register `number` (10_state R31); number 0 is `CMD`, and the write issues a command. -/
  | writeReg (number value : Nat)
  /-- The host reads register `number` (10_state R31). -/
  | readReg (number : Nat)
  /-- The host writes one byte of its data memory (20_memory R50, R65). -/
  | memWrite (addr : Nat) (b : Byte)
  /-- The host reads one byte of its data memory (20_memory R65, R71). -/
  | memRead (addr : Nat)
  /-- The platform drives another image of 1.0 (10_state R28). -/
  | driveProbe (p : Probe)
  /-- Reset, between commands, with the image of 1.0 the platform drives from then on (70 R260, R261). -/
  | reset (p : Probe)
  deriving DecidableEq, Repr

/-- One line of assembler (30_encoding R89); an absent buffer, written `-`, is `none`. -/
inductive AsmLine where
  | capchk
  | cvt (k : Cvt) (dst src : Option Nat) (n : Nat)
  deriving DecidableEq, Repr

end Sys2Proof
end

