-- ==== Sys2Proof/WellFormed.lean ====
section
/-! DEFINITION. Which commands, parameters and host actions are well formed. -/

namespace Sys2Proof

/-- Every term of `Instr` is a command: the byte has no operand fields but the two presence bits, each of which may be set
or not in a `CVT` command, and `CAPCHK` carries none (30_encoding R83, R84, R85). -/
def Instr.wellFormed : Instr → Bool
  | .capchk => true
  | .cvtS2H _ _ => true
  | .cvtD2H _ _ => true
  | .cvtH2S _ _ => true
  | .cvtH2D _ _ => true

/-- A NaN high word: exponent field all ones, mantissa bits 19:0 not all zero (44 R183). -/
def isNanHighWord (hi : Word) : Bool :=
  hi.extractLsb' 20 11 == 0x7FF#11 && hi.extractLsb' 0 20 != 0#20

/-- The constraints on the parameters: `AW` and `CW` positive (00_scope R9), `H2D_NAN_HI` a NaN high word (44 R183). -/
def Platform.wellFormed (p : Platform) : Bool :=
  decide (0 < p.aw) && decide (0 < p.cw) && isNanHighWord p.h2dNanHi

/-- The action names a register of 10_state R31 that it may reach, its value fits the register (`CMD` 8 bits, `SRC` and
`DST` `AW`, `COUNT` `CW`), and its memory address exists (20_memory R50). -/
def HostAction.wellFormed (p : Platform) : HostAction → Bool
  | .writeReg 0 v => decide (v < 2 ^ 8)
  | .writeReg 1 v => decide (v < 2 ^ p.aw)
  | .writeReg 2 v => decide (v < 2 ^ p.aw)
  | .writeReg 3 v => decide (v < 2 ^ p.cw)
  | .writeReg n _ => decide (n < 6)
  | .readReg n => decide (0 < n) && decide (n < 6)
  | .memWrite a _ => decide (a < 2 ^ p.aw)
  | .memRead a => decide (a < 2 ^ p.aw)
  | .driveProbe _ => true
  | .reset _ => true

end Sys2Proof
end

