-- ==== Sys2Proof/Decode.lean ====
section
/-! DEFINITION. The decoder of the command byte (30_encoding R81, R82, R85), total and rejecting by name (R86), and the
encoder. -/

namespace Sys2Proof

/-- Why a byte is reserved (30_encoding R86). -/
inductive DecodeError where
  /-- `RSV`, bits 7:5, is not 0 (224 bytes). -/
  | reservedBitsSet
  /-- `OPC` is 1, 2 or 3 (12 bytes). -/
  | reservedOpcode
  /-- `OPC` is 0 with `SP` or `DP` set (3 bytes). -/
  | capchkWithPresence
  deriving DecidableEq, Repr

/-- The decoder of 30_encoding R85, in its order of tests. -/
def decode (b : Byte) : Except DecodeError Instr :=
  let rsv := b.extractLsb' 5 3
  let dp := b.getLsbD 4
  let sp := b.getLsbD 3
  if rsv ≠ 0#3 then .error .reservedBitsSet
  else match (b.extractLsb' 0 3).toNat with
    | 0 => if sp = false ∧ dp = false then .ok .capchk else .error .capchkWithPresence
    | 4 => .ok (.cvtS2H dp sp)
    | 5 => .ok (.cvtD2H dp sp)
    | 6 => .ok (.cvtH2S dp sp)
    | 7 => .ok (.cvtH2D dp sp)
    | _ => .error .reservedOpcode

/-- The command byte from its fields: `RSV` = 0, `DP`, `SP`, `OPC` (30_encoding R81). -/
def commandByte (dp sp : Bool) (opc : BitVec 3) : Byte :=
  0#3 ++ BitVec.ofBool dp ++ BitVec.ofBool sp ++ opc

/-- The byte of a command, from the `OPC` values of 30_encoding R82. -/
def encode : Instr → Byte
  | .capchk => commandByte false false 0b000#3
  | .cvtS2H dp sp => commandByte dp sp 0b100#3
  | .cvtD2H dp sp => commandByte dp sp 0b101#3
  | .cvtH2S dp sp => commandByte dp sp 0b110#3
  | .cvtH2D dp sp => commandByte dp sp 0b111#3

/-- The value the host writes to `CMD` for the command whose bits are the low `nbits` of `w`. A command is one byte
(30_encoding R80, R88), so the value of a longer one does not fit the port. -/
def commandValue (nbits w : Nat) : Nat :=
  w % 2 ^ nbits

/-- The instruction the decoder reads from an opcode-table word. -/
def decodeTableWord (nbits w : Nat) : Option Instr :=
  if commandValue nbits w < 2 ^ 8 then
    match decode (BitVec.ofNat 8 (commandValue nbits w)) with
    | .ok i => some i
    | .error _ => none
  else none

end Sys2Proof
end

