-- ==== Sys2Proof/Machine/State.lean ====
section
/-! DEFINITION. The state, as plain data; the reasons a step can stop; the state after reset. -/

namespace Sys2Proof.Machine

/-- The data memory (20_memory R50): address and byte pairs, addresses strictly rising, no entry equal to `unlistedByte`
(`Memory.wf`). Every assignment of bytes to the addresses has exactly one such list. -/
abbrev Memory := List Host.Cell

/-- What a byte that no entry lists reads as. DESIGN CHOICE (log entry 7): the spec gives the host's memory no reset
content (10_state R35, R36). -/
def unlistedByte : Byte := 0#8

/-- An operand register (10_state R25): its content, and the mark "written since reset" (10_state R35, 93 U10). -/
structure OperandReg where
  value : Nat
  written : Bool
  deriving DecidableEq, Repr

/-- The names of the operand registers (10_state R25). -/
inductive OperandName where
  | src
  | dst
  | count
  deriving DecidableEq, Repr

/-- The preconditions of a converting command that can be false in this model (20_memory R60; P5 has no move, log entry 10). -/
inductive Precondition where
  /-- P1: no address passes `2^AW`. -/
  | range
  /-- P2: every byte of both ranges is `Accessible`. -/
  | size
  /-- P3: both bases are aligned. -/
  | alignment
  /-- P4: the two ranges have no byte in common. -/
  | disjoint
  /-- P6: every byte of both ranges is plain memory. -/
  | plain
  deriving DecidableEq, Repr

/-- The machine: the block's registers (10_state R24), its input `PROBE` (R28), the parameters (R36), the host's data memory,
and the model's own interface fields (log entries 4, 6, 20). -/
structure State where
  /-- The parameters of 00_scope R9; no step changes them. -/
  platform : Platform
  /-- `PROBE`, an input (10_state R28). -/
  probe : Probe
  /-- `CAP`: bit 0 `VALID`, bit 1 `IEEE`, bit 2 `HHF` (10_state R27). -/
  cap : BitVec 3
  /-- `STATUS`: 0 `OK`, 1 `UNSUPPORTED` (10_state R29). -/
  status : BitVec 1
  /-- `SRC`, of `AW` bits. -/
  src : OperandReg
  /-- `DST`, of `AW` bits. -/
  dst : OperandReg
  /-- `COUNT`, of `CW` bits. -/
  count : OperandReg
  /-- The host's data memory. -/
  mem : Memory
  /-- What the last host read returned; `none` before any read (60 R246). -/
  hostData : Option Nat
  /-- The actions of the host and the platform still to happen, the next one first. -/
  pending : List HostAction
  /-- Which free contents the never-written operand registers hold; every reset moves on to new ones (log entry 4). -/
  freeEpoch : Nat
  deriving DecidableEq, Repr

/-- Why the machine stops with a fault. The block itself has no fault (60 R236): no command raises one. -/
inductive Fault where
  /-- Raised by the host actions `memWrite` and `memRead` for an address outside `0 .. 2^AW - 1` (20_memory R50). Safe. -/
  | noSuchAddress (a : Nat)
  deriving DecidableEq, Repr

/-- Why a step is given no meaning: the spec's `refuse` (60 R233). All are safe: nothing can be proved of what follows. -/
inductive Refusal where
  /-- Raised by `exec` for an instruction without a meaning; no arm uses it. Safe. -/
  | notModelled (mnemonic : String)
  /-- Raised by a write of a reserved byte to `CMD` (30_encoding R86). Safe. -/
  | reservedCommand (b : Byte)
  /-- Raised by an access to register number 6 or above (10_state R31). Safe. -/
  | reservedRegister (n : Nat)
  /-- Raised by a read of `CMD` (10_state R30). Safe. -/
  | readOfCommandPort
  /-- Raised by a write of a value wider than the register (log entry 13). Safe. -/
  | valueTooWide (n v : Nat)
  /-- Raised by a converting command that reads an operand register never written since reset: the spec gives it no meaning
  and asks a model to refuse it (40 R101, 10_state R35, 60 R233, 92 D17, 93 U10, the vector of 95 for R101). Safe. -/
  | operandNeverWritten (r : OperandName)
  /-- Raised by a converting command with a false precondition (20_memory R61). Safe. -/
  | preconditionFalse (p : Precondition)
  /-- Raised when `PROBE` changes between reset and the capability check (10_state R28, 60 R233). Safe. -/
  | probeChanged
  /-- Raised by a host access to a byte that is not plain memory, whose behaviour the spec does not give (log entry 9). Safe. -/
  | notPlainMemory (a : Nat)
  deriving DecidableEq, Repr

/-- The platform at `State.reset`. DESIGN CHOICE (log entry 2): the values of 95_test_vectors, section 2.5. -/
def resetPlatform : Platform where
  aw := 32
  cw := 32
  byteOrder := .little
  h2dNanHi := 0xFFF80000#32
  accessible := [⟨0, 2 ^ 32⟩]
  notPlain := []

/-- `PROBE` at `State.reset`. DESIGN CHOICE (log entry 2): 95_test_vectors, section 2.5. -/
def resetProbe : Probe := ⟨0x00000000#32, 0x3FF00000#32⟩

/-- An operand register after reset: never written (10_state R35). The content 0 is a DESIGN CHOICE (log entry 3) that no
command and no host read can see. -/
def OperandReg.neverWritten : OperandReg := ⟨0, false⟩

/-- The machine right after reset (10_state R35, 70 R260): `CAP` = 0b000, `STATUS` = 0, the operand registers never written,
no command running, and nothing asked of the block yet. -/
def State.reset : State where
  platform := resetPlatform
  probe := resetProbe
  cap := 0b000#3
  status := 0#1
  src := OperandReg.neverWritten
  dst := OperandReg.neverWritten
  count := OperandReg.neverWritten
  mem := []
  hostData := none
  pending := []
  freeEpoch := 0

end Sys2Proof.Machine
end

