-- ==== Sys2Proof/Machine/Ops.lean ====
section
/-! DEFINITION. The named operations over memory and registers: bytes, units in `BYTE_ORDER`, `CAP` and its lazy check, and
the two ends of a command. -/

namespace Sys2Proof.Machine

/-- The byte at address `a` (20_memory R50). -/
def Memory.read : Memory → Nat → Byte
  | [], _ => unlistedByte
  | (x, v) :: rest, a => if x = a then v else Memory.read rest a

/-- The memory without an entry for `a`. -/
def Memory.erase : Memory → Nat → Memory
  | [], _ => []
  | (x, v) :: rest, a => if x = a then Memory.erase rest a else (x, v) :: Memory.erase rest a

/-- The entry put before the first entry of a higher address. -/
def Memory.place : Memory → Nat → Byte → Memory
  | [], a, b => [(a, b)]
  | (x, v) :: rest, a, b => if a < x then (a, b) :: (x, v) :: rest else (x, v) :: Memory.place rest a b

/-- The memory with byte `b` at address `a`, in canonical form: the value an unlisted address reads as has no entry. -/
def Memory.write (m : Memory) (a : Nat) (b : Byte) : Memory :=
  if b = unlistedByte then Memory.erase m a else Memory.place (Memory.erase m a) a b

/-- Entries at addresses `lo` and above, strictly rising, none equal to what an unlisted address reads as. -/
def Memory.risesFrom : Nat → Memory → Bool
  | _, [] => true
  | lo, (x, v) :: rest => decide (lo ≤ x) && (v != unlistedByte) && Memory.risesFrom (x + 1) rest

/-- The canonical form of a memory. -/
def Memory.wf (m : Memory) : Bool :=
  Memory.risesFrom 0 m

/-- Every listed address lies in `0 .. top - 1` (20_memory R50, with `top` = `2^AW`). -/
def Memory.within (m : Memory) (top : Nat) : Bool :=
  m.all (fun c => decide (c.1 < top))

/-- Where byte `k` (bits 8k+7:8k) of an `n`-byte unit lies above the unit's address (20_memory R54, R55). -/
def byteOffset (o : ByteOrder) (n k : Nat) : Nat :=
  match o with
  | .little => k
  | .big => n - 1 - k

/-- `MemRead(a, 2)` (20_memory R54). -/
def memRead2 (o : ByteOrder) (m : Memory) (a : Nat) : BitVec 16 :=
  Memory.read m (a + byteOffset o 2 1) ++ Memory.read m (a + byteOffset o 2 0)

/-- `MemRead(a, 4)` (20_memory R54). -/
def memRead4 (o : ByteOrder) (m : Memory) (a : Nat) : BitVec 32 :=
  Memory.read m (a + byteOffset o 4 3) ++ Memory.read m (a + byteOffset o 4 2) ++
    Memory.read m (a + byteOffset o 4 1) ++ Memory.read m (a + byteOffset o 4 0)

/-- `MemWrite(a, 2, v)` (20_memory R55). -/
def memWrite2 (o : ByteOrder) (m : Memory) (a : Nat) (v : BitVec 16) : Memory :=
  Memory.write (Memory.write m (a + byteOffset o 2 0) (v.extractLsb' 0 8))
    (a + byteOffset o 2 1) (v.extractLsb' 8 8)

/-- `MemWrite(a, 4, v)` (20_memory R55). -/
def memWrite4 (o : ByteOrder) (m : Memory) (a : Nat) (v : BitVec 32) : Memory :=
  Memory.write
    (Memory.write
      (Memory.write
        (Memory.write m (a + byteOffset o 4 0) (v.extractLsb' 0 8))
        (a + byteOffset o 4 1) (v.extractLsb' 8 8))
      (a + byteOffset o 4 2) (v.extractLsb' 16 8))
    (a + byteOffset o 4 3) (v.extractLsb' 24 8)

/-- `hi_addr(a)`, the address of the high word of the double at `a`, by `CAP.HHF` (20_memory R57). -/
def hiAddr (hhf : Bool) (a : Nat) : Nat :=
  a + (if hhf then 0 else 4)

/-- `lo_addr(a)`, the address of the low word of the double at `a`, by `CAP.HHF` (20_memory R57). -/
def loAddr (hhf : Bool) (a : Nat) : Nat :=
  a + (if hhf then 4 else 0)

/-- `VALID`, bit 0 of `CAP` (10_state R27). -/
def capValid (cap : BitVec 3) : Bool := cap.getLsbD 0

/-- `IEEE`, bit 1 of `CAP` (10_state R27). -/
def capIeee (cap : BitVec 3) : Bool := cap.getLsbD 1

/-- `HHF`, bit 2 of `CAP` (10_state R27). -/
def capHhf (cap : BitVec 3) : Bool := cap.getLsbD 2

/-- `CAP` from its fields (10_state R27). -/
def capOf (hhf ieee valid : Bool) : BitVec 3 :=
  BitVec.ofBool hhf ++ BitVec.ofBool ieee ++ BitVec.ofBool valid

/-- The function `capcheck` (40 R108): both words are compared in both orders with the image of the double 1.0. -/
def capcheck (p : Probe) : BitVec 3 :=
  if p.w0 = 0x3FF00000#32 ∧ p.w1 = 0x00000000#32 then capOf true true true
  else if p.w0 = 0x00000000#32 ∧ p.w1 = 0x3FF00000#32 then capOf false true true
  else capOf false false true

/-- `CAP` after the lazy check (40 R102): evaluated only while `CAP.VALID` = 0, then cached. -/
def lazyCap (s : State) : BitVec 3 :=
  if capValid s.cap then s.cap else capcheck s.probe

/-- The state after the lazy check (40 R100 step 2, R102): the three fields of `CAP` are written at once, nothing else. -/
def lazyCheck (s : State) : State :=
  { s with cap := lazyCap s }

/-- `fail UNSUPPORTED`, the block's one error (60 R231, R236). It saves no state, changes no mode and transfers control
nowhere: the whole entry is `STATUS <- 1`, and there is no return from it (60 R237). -/
def failUnsupported (s : State) : State :=
  { s with status := 1#1 }

/-- The end of a command with status `OK` (40 R100 steps 4, 5, 6, 9). -/
def finishOk (s : State) : State :=
  { s with status := 0#1 }

/-- The content of operand register `number`, of `width` bits (10_state R25, R31): what the host last wrote, and until the
first write since reset one free value, the same at every read (10_state R35, 93 U10, 60 R245; log entry 4). -/
def operandContent (r : OperandReg) (number width epoch : Nat) : Nat :=
  if r.written then r.value else Config.freeOperand epoch number % 2 ^ width

/-- Reset (70 R260, 10_state R35): `CAP` and `STATUS` cleared, the operand registers never written and of new unspecified
contents (log entries 4, 15), no memory touched. `p` is the image of 1.0 the platform drives from then on (00_scope R9,
60 R237; log entry 14). -/
def resetBlock (p : Probe) (s : State) : State :=
  { s with
    probe := p
    cap := 0b000#3
    status := 0#1
    src := OperandReg.neverWritten
    dst := OperandReg.neverWritten
    count := OperandReg.neverWritten
    freeEpoch := s.freeEpoch + 1 }

end Sys2Proof.Machine
end

