-- ==== Sys2Proof/Machine/Flags.lean ====
section
/-! DEFINITION. The block has no flags, condition codes or exception flags (10_state R32, 45 R202); the only outcome bit is
`STATUS` (10_state R29). This file gives the status a command ends with from `CAP` alone. -/

namespace Sys2Proof.Machine

/-- The status of a command that does not refuse: 1 (`UNSUPPORTED`) exactly when `CAP.IEEE` = 0 after the lazy check
(10_state R29, R37 (e); 40 R103, R107). -/
def statusOf (cap : BitVec 3) : BitVec 1 :=
  if capIeee cap then 0#1 else 1#1

end Sys2Proof.Machine
end

