-- ==== Sys2Proof/Machine/CapCheck.lean ====
section
/-! DEFINITION. The command `CAPCHK` (40 R107). -/

namespace Sys2Proof.Machine

/-- `CAPCHK`: the lazy check, then the status by `CAP.IEEE` (40 R107). It reads no operand register and no memory. -/
def execCapchk (s : State) : Host.Outcome State Fault Refusal :=
  .next { lazyCheck s with status := statusOf (lazyCap s) }

end Sys2Proof.Machine
end

