-- ==== Sys2Proof/Machine/Formats.lean ====
section
/-! DEFINITION. The element functions S2H, D2H, H2S and H2D (41 R121, 42 R141, 43 R161, 44 R181), total functions of bit
patterns. Field values are extracted once; the re-biased exponents are integers (00_scope R11). -/

namespace Sys2Proof.Machine

/-- The half `(xs << 15) | v` (41 R129). -/
def signedHalf (xs : BitVec 1) (v : Half) : Half :=
  (xs.setWidth 16 <<< 15) ||| v

/-- The mantissa of S2H's underflow case, `hes <= 0` (41 R126): the leading bit restored, shifted right by `14 - hes`, and
the next lower bit added; 0 when the shift count passes 24. -/
def s2hUnderflow (hes : Int) (xm : BitVec 23) : Half :=
  let sh := 14 - hes
  if sh > 24 then 0#16
  else
    let m24 : BitVec 24 := 0x800000#24 ||| xm.setWidth 24
    (m24 >>> sh.toNat).setWidth 16 + ((m24 >>> (sh - 1).toNat) &&& 1#24).setWidth 16

/-- S2H's normal case, `0 < hes < 31` (41 R128): bit 12 of the mantissa is added to the whole 16-bit word. -/
def s2hNormal (xs : BitVec 1) (hes : Int) (xm : BitVec 23) : Half :=
  let t := signedHalf xs ((BitVec.ofInt 16 hes <<< 10) ||| (xm >>> 13).setWidth 16)
  t + (xm.extractLsb' 12 1).setWidth 16

/-- S2H (41 R121), the cases in the rule's order. -/
def s2h (x : Word) : Half :=
  let xs := x.extractLsb' 31 1
  let xe := (x.extractLsb' 23 8).toNat
  let xm := x.extractLsb' 0 23
  if x.extractLsb' 0 31 = 0#31 then signedHalf xs 0#16
  else if xe = 0 then signedHalf xs 0#16
  else if xe = 255 then
    if xm = 0#23 then signedHalf xs 0x7C00#16 else 0xFE00#16
  else
    let hes : Int := (xe : Int) - 127 + 15
    if hes ≥ 31 then signedHalf xs 0x7C00#16
    else if hes ≤ 0 then signedHalf xs (s2hUnderflow hes xm)
    else s2hNormal xs hes xm

/-- The mantissa of D2H's underflow case, `hes <= 0` (42 R146), with the source's own threshold (90_conflicts C8). -/
def d2hUnderflow (hes : Int) (xm : BitVec 20) : Half :=
  if 10 - hes > 21 then 0#16
  else
    let m21 : BitVec 21 := 0x100000#21 ||| xm.setWidth 21
    (m21 >>> (11 - hes).toNat).setWidth 16 + ((m21 >>> (10 - hes).toNat) &&& 1#21).setWidth 16

/-- D2H's normal case, `0 < hes < 31` (42 R148): bit 9 of the mantissa is added to the whole 16-bit word. -/
def d2hNormal (xs : BitVec 1) (hes : Int) (xm : BitVec 20) : Half :=
  let t := signedHalf xs ((BitVec.ofInt 16 hes <<< 10) ||| (xm >>> 10).setWidth 16)
  t + (xm.extractLsb' 9 1).setWidth 16

/-- D2H (42 R140, R141), a function of the high word of the double alone. -/
def d2h (hi : Word) : Half :=
  let xs := hi.extractLsb' 31 1
  let xe := (hi.extractLsb' 20 11).toNat
  let xm := hi.extractLsb' 0 20
  if hi.extractLsb' 0 31 = 0#31 then signedHalf xs 0#16
  else if xe = 0 then signedHalf xs 0#16
  else if xe = 2047 then
    if xm = 0#20 then signedHalf xs 0x7C00#16 else 0xFE00#16
  else
    let hes : Int := (xe : Int) - 1023 + 15
    if hes ≥ 31 then signedHalf xs 0x7C00#16
    else if hes ≤ 0 then signedHalf xs (d2hUnderflow hes xm)
    else d2hNormal xs hes xm

/-- The normalisation of a half denormal (43 R164): `w` is shifted left by one bit until bit 10 is set, `s` counting the
shifts. At most 10 shifts are needed (40 R110), so 10 is fuel enough. -/
def normalise : (fuel : Nat) → (w : BitVec 11) → (s : Nat) → BitVec 11 × Nat
  | 0, w, s => (w, s)
  | fuel + 1, w, s =>
    let w' := w <<< 1
    if w'.getLsbD 10 then (w', s + 1) else normalise fuel w' (s + 1)

/-- The single `(hs << 31) | (xes << 23) | (frac << 13)` (43 R161). -/
def packSingle (hs : BitVec 1) (xes : Int) (frac : BitVec 10) : Word :=
  (hs.setWidth 32 <<< 31) ||| (BitVec.ofInt 32 xes <<< 23) ||| (frac.setWidth 32 <<< 13)

/-- H2S (43 R161). The count `e` of the source's exponent formula is one less than the number of shifts (90_conflicts C2). -/
def h2s (h : Half) : Word :=
  let hs := h.extractLsb' 15 1
  let he := (h.extractLsb' 10 5).toNat
  let hm := h.extractLsb' 0 10
  if h.extractLsb' 0 15 = 0#15 then hs.setWidth 32 <<< 31
  else if he = 0 then
    let (w, s) := normalise 10 (hm.setWidth 11) 0
    let e : Int := (s : Int) - 1
    packSingle hs (0 - 15 + 127 - e) (w.extractLsb' 0 10)
  else if he = 31 then
    if hm = 0#10 then (hs.setWidth 32 <<< 31) ||| 0x7F800000#32 else 0xFFC00000#32
  else packSingle hs ((he : Int) - 15 + 127) hm

/-- The high word `(hs << 31) | (xes << 20) | (frac << 10)` of a double (44 R181). -/
def packDoubleHi (hs : BitVec 1) (xes : Int) (frac : BitVec 10) : Word :=
  (hs.setWidth 32 <<< 31) ||| (BitVec.ofInt 32 xes <<< 20) ||| (frac.setWidth 32 <<< 10)

/-- The high word of H2D (44 R181), `nanHi` the parameter `H2D_NAN_HI`. -/
def h2dHi (nanHi : Word) (h : Half) : Word :=
  let hs := h.extractLsb' 15 1
  let he := (h.extractLsb' 10 5).toNat
  let hm := h.extractLsb' 0 10
  if h.extractLsb' 0 15 = 0#15 then hs.setWidth 32 <<< 31
  else if he = 0 then
    let (w, s) := normalise 10 (hm.setWidth 11) 0
    let e : Int := (s : Int) - 1
    packDoubleHi hs (0 - 15 + 1023 - e) (w.extractLsb' 0 10)
  else if he = 31 then
    if hm = 0#10 then (hs.setWidth 32 <<< 31) ||| 0x7FF00000#32 else nanHi
  else packDoubleHi hs ((he : Int) - 15 + 1023) hm

/-- H2D (44 R180, R181), the pair of the high and the low word; the low word is 0 for every half. -/
def h2d (nanHi : Word) (h : Half) : Word × Word :=
  (h2dHi nanHi h, 0x00000000#32)

end Sys2Proof.Machine
end

