-- ==== Sys2Proof/Machine/Operands.lean ====
section
/-! DEFINITION. The operands of the converting commands: element sizes and alignments, element addresses, the reading of the
operand registers, the preconditions, and the skeleton of a `CVT` command with its element loop. -/

namespace Sys2Proof.Machine

/-- Bytes of a source element (30_encoding R82, 20_memory R52). -/
def srcSize : Cvt → Nat
  | .s2h => 4
  | .d2h => 8
  | .h2s => 2
  | .h2d => 2

/-- Bytes of a destination element (30_encoding R82, 20_memory R52). -/
def dstSize : Cvt → Nat
  | .s2h => 2
  | .d2h => 2
  | .h2s => 4
  | .h2d => 8

/-- What the base of a buffer of elements of `size` bytes must be a multiple of: halves 2, singles 4, doubles 4
(20_memory R59). -/
def baseAlign (size : Nat) : Nat :=
  if size = 2 then 2 else 4

/-- The address of element `i` of a buffer of elements of `size` bytes, exact arithmetic (20_memory R56). -/
def elementAddr (base size i : Nat) : Nat :=
  base + size * i

/-- Every address of `base .. base + n - 1` satisfies `ok`. -/
def allBytes (ok : Nat → Bool) (base : Nat) : Nat → Bool
  | 0 => true
  | n + 1 => ok (base + n) && allBytes ok base n

/-- The first of the preconditions P1, P2, P3, P4, P6 of 20_memory R60 that is false, for conversion `k` of `n` elements from
`src` to `dst`. -/
def brokenPrecondition (p : Platform) (k : Cvt) (src dst n : Nat) : Option Precondition :=
  if ¬ (src + srcSize k * n ≤ 2 ^ p.aw ∧ dst + dstSize k * n ≤ 2 ^ p.aw) then some .range
  else if ¬ (allBytes p.isAccessible src (srcSize k * n) = true ∧
      allBytes p.isAccessible dst (dstSize k * n) = true) then some .size
  else if ¬ (src % baseAlign (srcSize k) = 0 ∧ dst % baseAlign (dstSize k) = 0) then some .alignment
  else if ¬ (src + srcSize k * n ≤ dst ∨ dst + dstSize k * n ≤ src) then some .disjoint
  else if ¬ (allBytes p.isPlain src (srcSize k * n) = true ∧
      allBytes p.isPlain dst (dstSize k * n) = true) then some .plain
  else none

/-- One pass of the element loop, `MemWrite(t, _, f(MemRead(s, _)))`: the memory after the element at `s` is converted to
the element at `t`, from the parameters and `CAP.HHF` (20_memory R58). -/
abbrev ElementStep := (p : Platform) → (hhf : Bool) → (m : Memory) → (s t : Nat) → Memory

/-- The element loop (40 R105, 20_memory R64) from element `i` on, `remaining` elements to go: element order, each read,
converted and written before the next. -/
def convertFrom (f : ElementStep) (p : Platform) (hhf : Bool) (k : Cvt) (src dst : Nat) :
    (remaining i : Nat) → Memory → Memory
  | 0, _, m => m
  | remaining + 1, i, m =>
    convertFrom f p hhf k src dst remaining (i + 1)
      (f p hhf m (elementAddr src (srcSize k) i) (elementAddr dst (dstSize k) i))

/-- Steps 7 to 9 of 40 R100, after N has been read and is not 0: `SRC` and `DST` are read (40 R101), the preconditions hold
or the command has no meaning (20_memory R61), the elements are converted, `STATUS` becomes `OK`. -/
def convertBuffers (f : ElementStep) (k : Cvt) (s : State) : Host.Outcome State Fault Refusal :=
  if s.src.written = false then .refused (.operandNeverWritten .src)
  else if s.dst.written = false then .refused (.operandNeverWritten .dst)
  else match brokenPrecondition s.platform k s.src.value s.dst.value s.count.value with
    | some broken => .refused (.preconditionFalse broken)
    | none =>
      .next (finishOk { s with
        mem := convertFrom f s.platform (capHhf s.cap) k s.src.value s.dst.value s.count.value 0 s.mem })

/-- Steps 5 to 9 of 40 R100, on a supported host after the lazy check: an absent buffer ends the command before any operand
register is read (R104, 20_memory R62), then `COUNT` is read (R101), and N = 0 ends it (R104). -/
def convertSupported (f : ElementStep) (k : Cvt) (dp sp : Bool) (s : State) : Host.Outcome State Fault Refusal :=
  if sp = false ∨ dp = false then .next (finishOk s)
  else if s.count.written = false then .refused (.operandNeverWritten .count)
  else if s.count.value = 0 then .next (finishOk s)
  else convertBuffers f k s

/-- A `CVT` command: the steps 2 to 9 of 40 R100, with the element function put in. -/
def convertCommand (f : ElementStep) (k : Cvt) (dp sp : Bool) (s : State) : Host.Outcome State Fault Refusal :=
  if capIeee (lazyCap s) = false then .next (failUnsupported (lazyCheck s))
  else convertSupported f k dp sp (lazyCheck s)

end Sys2Proof.Machine
end

