-- ==== Sys2Proof/Machine/Decoders.lean ====
section
/-! DEFINITION. The decoders, half to wide: `CVT.H2S` (43 R170) and `CVT.H2D` (44 R190). -/

namespace Sys2Proof.Machine

/-- One element of `CVT.H2S`: `MemWrite(t, 4, H2S(MemRead(s, 2)))` (20_memory R58, 43 R170). -/
def elementH2S : ElementStep :=
  fun p _ m s t => memWrite4 p.byteOrder m t (h2s (memRead2 p.byteOrder m s))

/-- `CVT.H2S` (43 R170). -/
def execCvtH2S (dp sp : Bool) (s : State) : Host.Outcome State Fault Refusal :=
  convertCommand elementH2S .h2s dp sp s

/-- One element of `CVT.H2D`: both words are written, placed by `CAP.HHF` (20_memory R57, R58; 44 R190). The high word is
written first; the spec leaves the order open and it cannot be observed (20_memory R64, log entry 11). -/
def elementH2D : ElementStep :=
  fun p hhf m s t =>
    let d := h2d p.h2dNanHi (memRead2 p.byteOrder m s)
    memWrite4 p.byteOrder (memWrite4 p.byteOrder m (hiAddr hhf t) d.1) (loAddr hhf t) d.2

/-- `CVT.H2D` (44 R190). -/
def execCvtH2D (dp sp : Bool) (s : State) : Host.Outcome State Fault Refusal :=
  convertCommand elementH2D .h2d dp sp s

end Sys2Proof.Machine
end

