-- ==== Sys2Proof/Machine/Encoders.lean ====
section
/-! DEFINITION. The encoders, wide to half: `CVT.S2H` (41 R130) and `CVT.D2H` (42 R150). -/

namespace Sys2Proof.Machine

/-- One element of `CVT.S2H`: `MemWrite(t, 2, S2H(MemRead(s, 4)))` (20_memory R58, 41 R130). -/
def elementS2H : ElementStep :=
  fun p _ m s t => memWrite2 p.byteOrder m t (s2h (memRead4 p.byteOrder m s))

/-- `CVT.S2H` (41 R130). -/
def execCvtS2H (dp sp : Bool) (s : State) : Host.Outcome State Fault Refusal :=
  convertCommand elementS2H .s2h dp sp s

/-- One element of `CVT.D2H`: only the high word of the double is read (20_memory R58, 42 R150). -/
def elementD2H : ElementStep :=
  fun p hhf m s t => memWrite2 p.byteOrder m t (d2h (memRead4 p.byteOrder m (hiAddr hhf s)))

/-- `CVT.D2H` (42 R150). -/
def execCvtD2H (dp sp : Bool) (s : State) : Host.Outcome State Fault Refusal :=
  convertCommand elementD2H .d2h dp sp s

end Sys2Proof.Machine
end

