-- ==== Sys2Proof/Machine/Dispatch.lean ====
section
/-! DEFINITION. The dispatch: one arm per command. -/

namespace Sys2Proof.Machine

def exec (i : Instr) (s : State) : Host.Outcome State Fault Refusal :=
  match i with
  | .capchk => Sys2Proof.Machine.execCapchk s
  | .cvtS2H dp sp => Sys2Proof.Machine.execCvtS2H dp sp s
  | .cvtD2H dp sp => Sys2Proof.Machine.execCvtD2H dp sp s
  | .cvtH2S dp sp => Sys2Proof.Machine.execCvtH2S dp sp s
  | .cvtH2D dp sp => Sys2Proof.Machine.execCvtH2D dp sp s

end Sys2Proof.Machine
end

