-- ==== Sys2Proof/Machine/HostPort.lean ====
section
/-! DEFINITION. The host interface: register accesses by number (10_state R31), the issue of a command (30_encoding R80,
40 R100), the host's own memory accesses (20_memory R65), `PROBE` and reset (10_state R28, 70 R260). -/

namespace Sys2Proof.Machine

/-- A write of byte `b` to `CMD` issues a command (30_encoding R80, 40 R100 step 1); a reserved byte has no meaning (R86). -/
def issue (b : Byte) (s : State) : Host.Outcome State Fault Refusal :=
  match decode b with
  | .ok i => exec i s
  | .error _ => .refused (.reservedCommand b)

/-- An operand register after the host wrote `v` to it. -/
def OperandReg.holding (v : Nat) : OperandReg := ⟨v, true⟩

/-- A host write of `v` to register number `n` (10_state R31). Writes to `STATUS` and `CAP` have no effect. -/
def hostWriteReg (n v : Nat) (s : State) : Host.Outcome State Fault Refusal :=
  match n with
  | 0 => if v < 2 ^ 8 then issue (BitVec.ofNat 8 v) s else .refused (.valueTooWide n v)
  | 1 =>
    if v < 2 ^ s.platform.aw then .next { s with src := OperandReg.holding v } else .refused (.valueTooWide n v)
  | 2 =>
    if v < 2 ^ s.platform.aw then .next { s with dst := OperandReg.holding v } else .refused (.valueTooWide n v)
  | 3 =>
    if v < 2 ^ s.platform.cw then .next { s with count := OperandReg.holding v } else .refused (.valueTooWide n v)
  | 4 => .next s
  | 5 => .next s
  | _ => .refused (.reservedRegister n)

/-- A host read of register number `n` (10_state R30, R31); it changes no register (60 R245). -/
def hostReadReg (n : Nat) (s : State) : Host.Outcome State Fault Refusal :=
  match n with
  | 0 => .refused .readOfCommandPort
  | 1 => .next { s with hostData := some (operandContent s.src 1 s.platform.aw s.freeEpoch) }
  | 2 => .next { s with hostData := some (operandContent s.dst 2 s.platform.aw s.freeEpoch) }
  | 3 => .next { s with hostData := some (operandContent s.count 3 s.platform.cw s.freeEpoch) }
  | 4 => .next { s with hostData := some s.status.toNat }
  | 5 => .next { s with hostData := some s.cap.toNat }
  | _ => .refused (.reservedRegister n)

/-- A host write of one byte of its data memory (20_memory R50, R65; log entries 8 and 9). -/
def hostWriteMem (a : Nat) (b : Byte) (s : State) : Host.Outcome State Fault Refusal :=
  if ¬ a < 2 ^ s.platform.aw then .fault (.noSuchAddress a)
  else if s.platform.isPlain a = false then .refused (.notPlainMemory a)
  else .next { s with mem := Memory.write s.mem a b }

/-- A host read of one byte of its data memory (20_memory R65, R71; log entries 8 and 9). -/
def hostReadMem (a : Nat) (s : State) : Host.Outcome State Fault Refusal :=
  if ¬ a < 2 ^ s.platform.aw then .fault (.noSuchAddress a)
  else if s.platform.isPlain a = false then .refused (.notPlainMemory a)
  else .next { s with hostData := some (Memory.read s.mem a).toNat }

/-- The platform drives `PROBE` (10_state R28): a change before the check has no meaning (60 R233), one after it is not seen
by any rule before the next reset (40 R109; log entry 14). -/
def driveProbe (p : Probe) (s : State) : Host.Outcome State Fault Refusal :=
  if capValid s.cap = false ∧ p ≠ s.probe then .refused .probeChanged
  else .next { s with probe := p }

/-- One action of the host or the platform. -/
def hostAct (act : HostAction) (s : State) : Host.Outcome State Fault Refusal :=
  match act with
  | .writeReg n v => hostWriteReg n v s
  | .readReg n => hostReadReg n s
  | .memWrite a b => hostWriteMem a b s
  | .memRead a => hostReadMem a s
  | .driveProbe p => driveProbe p s
  | .reset p => .next (resetBlock p s)

/-- One step: the next pending action happens, wholly before the one after it (20_memory R65 (c)); with none pending the
block only holds its state (60 R245). -/
def stepHost (s : State) : Host.Outcome State Fault Refusal :=
  match s.pending with
  | [] => .next s
  | act :: rest => hostAct act { s with pending := rest }

/-- The host's next action is the write of `v` to `CMD` (30_encoding R80). -/
def queueCommand (v : Nat) (s : State) : State :=
  { s with pending := .writeReg 0 v :: s.pending }

end Sys2Proof.Machine
end

