-- ==== Sys2Proof/Machine/Step.lean ====
section
/-! DEFINITION. The step, and the placing of a command where the step takes it from. -/

namespace Sys2Proof.Machine

/-- One step of the machine: one action of the host or the platform, a command being one such action and one atomic
transition (20_memory R63). -/
def step (s : State) : Host.Outcome State Fault Refusal :=
  stepHost s

/-- The state in which the host's very next action is to write the command whose bits are `w` to `CMD`: the block fetches
nothing (10_state R26), so this stands where another machine would store an instruction (log entry 6). -/
def State.withFetchWord (s : State) (nbits w : Nat) : State :=
  queueCommand (commandValue nbits w) s

end Sys2Proof.Machine
end

