-- ==== Sys2Proof/Machine/Assembler.lean ====
section
/-! DEFINITION. The assembler notation of 30_encoding R89: what a line makes the host do. -/

namespace Sys2Proof.Machine

/-- The write of an address register, skipped for an absent buffer (30_encoding R89). -/
def addressWrite (number : Nat) : Option Nat → List HostAction
  | some a => [.writeReg number a]
  | none => []

/-- The host actions of a line (30_encoding R89): `SRC`, `DST` (each skipped when absent), `COUNT`, then the command byte
with `SP` and `DP` cleared for an absent buffer. The first three may come in any order; the model writes this one (log
entry 21). -/
def assemble : AsmLine → List HostAction
  | .capchk => [.writeReg 0 (encode .capchk).toNat]
  | .cvt k dst src n =>
    addressWrite 1 src ++ addressWrite 2 dst ++
      [.writeReg 3 n, .writeReg 0 (encode (k.instr dst.isSome src.isSome)).toNat]

end Sys2Proof.Machine
end

