-- ==== Sys2Proof/Machine/Values.lean ====
section
/-! DEFINITION. The fields, classes and real values of the formats (10_state R20 to R23, 00_scope R13), and the rounding rule
stated on real values (00_scope R15, 45 R207). They state properties and define no result of a conversion. The value of a
denormal is PRESUMED (log entry 17). -/

namespace Sys2Proof.Machine

/-- `hs` (10_state R20). -/
def halfSign (h : Half) : Bool := h.getLsbD 15
/-- `he` (10_state R20). -/
def halfExp (h : Half) : Nat := (h.extractLsb' 10 5).toNat
/-- `hm` (10_state R20). -/
def halfMant (h : Half) : Nat := (h.extractLsb' 0 10).toNat

/-- `xs` of a single (10_state R21), and of the high word of a double (R22). -/
def wordSign (x : Word) : Bool := x.getLsbD 31
/-- `xe` of a single (10_state R21). -/
def singleExp (x : Word) : Nat := (x.extractLsb' 23 8).toNat
/-- `xm` of a single (10_state R21). -/
def singleMant (x : Word) : Nat := (x.extractLsb' 0 23).toNat

/-- The exponent field of a double, from its high word (10_state R22). -/
def doubleExp (hi : Word) : Nat := (hi.extractLsb' 20 11).toNat
/-- The top 20 mantissa bits of a double (10_state R22). -/
def doubleMantHi (hi : Word) : Nat := (hi.extractLsb' 0 20).toNat
/-- The 52 mantissa bits of a double (10_state R22). -/
def doubleMant (hi lo : Word) : Nat := doubleMantHi hi * 2 ^ 32 + lo.toNat

/-- The half is a NaN (10_state R23). -/
def halfIsNan (h : Half) : Bool := halfExp h == 31 && halfMant h != 0
/-- The half is an infinity (10_state R23). -/
def halfIsInf (h : Half) : Bool := halfExp h == 31 && halfMant h == 0
/-- The single is a NaN (10_state R23). -/
def singleIsNan (x : Word) : Bool := singleExp x == 255 && singleMant x != 0
/-- The double is a NaN judged on its high word alone (10_state R23, 42 R144). -/
def doubleHiIsNan (hi : Word) : Bool := doubleExp hi == 2047 && doubleMantHi hi != 0

/-- The magnitude denoted by the fields `e` and `m` of a finite pattern of a format with `E` exponent bits and `M` mantissa
bits, of bias `2^(E-1) - 1` (00_scope R13). -/
def magnitude (E M e m : Nat) : ℚ :=
  if e = 0 then (m : ℚ) * (2 : ℚ) ^ ((1 : ℤ) - (2 ^ (E - 1) - 1) - M)
  else ((2 : ℚ) ^ M + m) * (2 : ℚ) ^ ((e : ℤ) - (2 ^ (E - 1) - 1) - M)

/-- The magnitude of a finite half. -/
def halfMagnitude (h : Half) : ℚ := magnitude 5 10 (halfExp h) (halfMant h)
/-- The magnitude of a finite single. -/
def singleMagnitude (x : Word) : ℚ := magnitude 8 23 (singleExp x) (singleMant x)
/-- The magnitude of a finite double. -/
def doubleMagnitude (hi lo : Word) : ℚ := magnitude 11 52 (doubleExp hi) (doubleMant hi lo)

/-- A real value from its sign bit and its magnitude (00_scope R13). -/
def signedValue (s : Bool) (v : ℚ) : ℚ := if s then -v else v

/-- The quantum of the half grid at magnitude `v` (45 R207). -/
def quantum (v : ℚ) : ℚ :=
  if v < (2 : ℚ) ^ (-14 : ℤ) then (2 : ℚ) ^ (-24 : ℤ) else (2 : ℚ) ^ (Int.log 2 v - 10)

/-- The magnitude on the half grid nearest to `v`, ties away from zero, before overflow (45 R207). -/
def roundedMagnitude (v : ℚ) : ℚ :=
  (⌊v / quantum v + 1 / 2⌋ : ℚ) * quantum v

end Sys2Proof.Machine
end

