-- ==== Sys2Proof/Safety.lean ====
section
/-! DEFINITION. What claims are stated in: the invariant of the state, when a converting command reaches its element loop
with every precondition true, and runs without a refusal. -/

namespace Sys2Proof.Machine

/-- The legal values of `CAP`: not yet checked, unsupported, supported with either word order (10_state R27). -/
def capLegal (cap : BitVec 3) : Bool :=
  cap == 0b000#3 || cap == 0b001#3 || cap == 0b011#3 || cap == 0b111#3

/-- The invariant of the machine: the parameters meet their constraints (00_scope R9, 44 R183); `CAP` is legal (10_state R37
(c)); `STATUS` is 0 until the check and then says whether `CAP.IEEE` is 0 (R37 (e)); the memory is canonical and inside the
address space (20_memory R50); every operand register fits its width (10_state R25). -/
structure State.Inv (s : State) : Prop where
  platform_wf : s.platform.wellFormed = true
  cap_legal : capLegal s.cap = true
  status_eq : s.status = if capValid s.cap then statusOf s.cap else 0#1
  mem_wf : Memory.wf s.mem = true
  mem_within : Memory.within s.mem (2 ^ s.platform.aw) = true
  src_fits : s.src.value < 2 ^ s.platform.aw
  dst_fits : s.dst.value < 2 ^ s.platform.aw
  count_fits : s.count.value < 2 ^ s.platform.cw

/-- The address lies in `base .. base + n - 1`. -/
def InRange (base n a : Nat) : Prop :=
  base ≤ a ∧ a < base + n

/-- A `CVT` command with both buffers present reaches its element loop with the preconditions of 20_memory R60 true: the host
is supported after the lazy check (40 R100 step 3), the operand registers it reads were written (40 R101), N > 0, and P1, P2,
P3, P4, P6 hold. -/
structure CvtReady (k : Cvt) (s : State) : Prop where
  supported : capIeee (lazyCap s) = true
  src_written : s.src.written = true
  dst_written : s.dst.written = true
  count_written : s.count.written = true
  count_pos : 0 < s.count.value
  /-- P1 range. -/
  src_range : s.src.value + srcSize k * s.count.value ≤ 2 ^ s.platform.aw
  dst_range : s.dst.value + dstSize k * s.count.value ≤ 2 ^ s.platform.aw
  /-- P2 size. -/
  src_accessible : ∀ a, InRange s.src.value (srcSize k * s.count.value) a → s.platform.isAccessible a = true
  dst_accessible : ∀ a, InRange s.dst.value (dstSize k * s.count.value) a → s.platform.isAccessible a = true
  /-- P3 alignment. -/
  src_aligned : s.src.value % baseAlign (srcSize k) = 0
  dst_aligned : s.dst.value % baseAlign (dstSize k) = 0
  /-- P4 disjoint. -/
  buffers_disjoint : ∀ a, InRange s.src.value (srcSize k * s.count.value) a →
    ¬ InRange s.dst.value (dstSize k * s.count.value) a
  /-- P6 plain. -/
  src_plain : ∀ a, InRange s.src.value (srcSize k * s.count.value) a → s.platform.isPlain a = true
  dst_plain : ∀ a, InRange s.dst.value (dstSize k * s.count.value) a → s.platform.isPlain a = true

/-- A run in which every action has a meaning (70 R264): `n` steps from `s` reach `t`. Claims are made of such runs. -/
def RunsTo (n : Nat) (s t : State) : Prop :=
  Host.Core.run Sys2Proof.core n s = .next t

/-- `t` is reached from `s` by actions that each have a meaning. -/
def Reaches (s t : State) : Prop :=
  ∃ n, RunsTo n s t

end Sys2Proof.Machine
end

