-- ==== Sys2Proof/Certificates/Slice0/Obligations.lean ====
section
/-! DEFINITION. The statements about the model, for the provers. Each names the rule of spec/ it formalises; a clause that
rests on a choice of the model names its log entry. Where the spec marks a rule `[derived: from ...]` (R37, R71, R91, R105,
R129, R149, R186, R204 to R218, in R205 the consequences), it is the spec's own inference, and the statement of it has basis
derived. -/

open Sys2Proof Sys2Proof.Machine

/-! ## Encoding and the issue of commands -/

/-- 30_encoding R81, R82, R85: the decoder reads back every encoded command, with both presence bits. -/
def Obligations.DecodeOfEncodeIsTheCommand : Prop :=
  ∀ i : Instr, decode (encode i) = .ok i

/-- 30_encoding R81, R85: a byte that decodes is the byte of its command, so no bit of it is ignored. -/
def Obligations.DecodedByteIsEncodedByte : Prop :=
  ∀ (b : Byte) (i : Instr), decode b = .ok i → encode i = b

/-- 30_encoding R85: the five match and mask pairs, the presence bits 4 and 3, and the count of 17 commands. -/
def Obligations.CommandsByMatchAndMask : Prop :=
  (∀ b : Byte,
    (decode b = .ok .capchk ↔ b &&& 0xFF#8 = 0x00#8) ∧
    (decode b = .ok (.cvtS2H (b.getLsbD 4) (b.getLsbD 3)) ↔ b &&& 0xE7#8 = 0x04#8) ∧
    (decode b = .ok (.cvtD2H (b.getLsbD 4) (b.getLsbD 3)) ↔ b &&& 0xE7#8 = 0x05#8) ∧
    (decode b = .ok (.cvtH2S (b.getLsbD 4) (b.getLsbD 3)) ↔ b &&& 0xE7#8 = 0x06#8) ∧
    (decode b = .ok (.cvtH2D (b.getLsbD 4) (b.getLsbD 3)) ↔ b &&& 0xE7#8 = 0x07#8) ∧
    (∀ i, decode b = .ok i → i = .capchk ∨ ∃ k : Cvt, i = k.instr (b.getLsbD 4) (b.getLsbD 3))) ∧
  (List.range 256).countP (fun v => (decode (BitVec.ofNat 8 v)).isOk) = 17

/-- 30_encoding R86: a write of a reserved byte to `CMD` has no meaning, and there are 239 reserved bytes. -/
def Obligations.ReservedByteHasNoMeaning : Prop :=
  (∀ (s : State) (v : Nat) (rest : List HostAction), v < 2 ^ 8 → s.pending = .writeReg 0 v :: rest →
    ((BitVec.ofNat 8 v).extractLsb' 5 3 ≠ 0#3 ∨
      ((BitVec.ofNat 8 v).extractLsb' 5 3 = 0#3 ∧
        ((BitVec.ofNat 8 v).extractLsb' 0 3 = 1#3 ∨ (BitVec.ofNat 8 v).extractLsb' 0 3 = 2#3 ∨
          (BitVec.ofNat 8 v).extractLsb' 0 3 = 3#3)) ∨
      v = 0x08 ∨ v = 0x10 ∨ v = 0x18) →
    step s = .refused (.reservedCommand (BitVec.ofNat 8 v))) ∧
  (List.range 256).countP (fun v => !(decode (BitVec.ofNat 8 v)).isOk) = 239

/-- 30_encoding R80, 40 R100: when the host's next action is the write of a command byte to `CMD`, the step is the meaning of
the decoded command at the state without that action; and `withFetchWord` places exactly such a write. That the host's actions
stand in a list is the model's choice (log entry 6). -/
def Obligations.StepRunsTheDecodedCommand : Prop :=
  (∀ (s : State) (v : Nat) (rest : List HostAction) (i : Instr), v < 2 ^ 8 → s.pending = .writeReg 0 v :: rest →
    decode (BitVec.ofNat 8 v) = .ok i → step s = exec i { s with pending := rest }) ∧
  (∀ (s : State) (w : Nat) (i : Instr), decodeTableWord 8 w = some i → step (s.withFetchWord 8 w) = exec i s)

/-- 30_encoding R91: the bytes of the encoding examples stand for the commands of the examples. -/
def Obligations.ExampleBytesDecode : Prop :=
  decode 0b00000000#8 = .ok .capchk ∧
  decode 0b00011100#8 = .ok (.cvtS2H true true) ∧
  decode 0b00011101#8 = .ok (.cvtD2H true true) ∧
  decode 0b00011110#8 = .ok (.cvtH2S true true) ∧
  decode 0b00011111#8 = .ok (.cvtH2D true true) ∧
  decode 0b00001100#8 = .ok (.cvtS2H false true) ∧
  decode 0b00010111#8 = .ok (.cvtH2D true false) ∧
  decode 0b00000110#8 = .ok (.cvtH2S false false)

/-- 30_encoding R89: the line `capchk` issues its command. A `CVT` line writes `SRC` and `DST`, each only when present, and
`COUNT`, and then issues its command with `SP` and `DP` set for the present buffers. The order of the writes and the list of
actions are the model's (log entries 6, 21). -/
def Obligations.AssemblerLineRunsItsCommand : Prop :=
  (∀ (s : State) (rest : List HostAction), s.pending = assemble .capchk ++ rest →
    step s = exec .capchk { s with pending := rest }) ∧
  (∀ (s : State) (k : Cvt) (dst src : Option Nat) (n : Nat) (rest : List HostAction),
    (∀ a, src = some a → a < 2 ^ s.platform.aw) → (∀ a, dst = some a → a < 2 ^ s.platform.aw) →
    n < 2 ^ s.platform.cw → s.pending = assemble (.cvt k dst src n) ++ rest →
    ∃ t : State, RunsTo (src.toList.length + dst.toList.length + 1) s t ∧
      t = { s with
        src := src.elim s.src (fun a => ⟨a, true⟩)
        dst := dst.elim s.dst (fun a => ⟨a, true⟩)
        count := ⟨n, true⟩
        pending := t.pending } ∧
      step t = exec (k.instr dst.isSome src.isSome) { t with pending := rest })

/-! ## The host port -/

/-- 10_state R31: what a host write to a register does, by number; a value wider than the register is refused by the model's
choice (log entry 13). -/
def Obligations.HostWriteOfRegisters : Prop :=
  ∀ (s : State) (n v : Nat) (rest : List HostAction), s.pending = .writeReg n v :: rest →
    (n = 1 → v < 2 ^ s.platform.aw → step s = .next { s with pending := rest, src := ⟨v, true⟩ }) ∧
    (n = 2 → v < 2 ^ s.platform.aw → step s = .next { s with pending := rest, dst := ⟨v, true⟩ }) ∧
    (n = 3 → v < 2 ^ s.platform.cw → step s = .next { s with pending := rest, count := ⟨v, true⟩ }) ∧
    (n = 4 ∨ n = 5 → step s = .next { s with pending := rest }) ∧
    (6 ≤ n → step s = .refused (.reservedRegister n)) ∧
    ((n = 0 ∧ 2 ^ 8 ≤ v) ∨ ((n = 1 ∨ n = 2) ∧ 2 ^ s.platform.aw ≤ v) ∨ (n = 3 ∧ 2 ^ s.platform.cw ≤ v) →
      step s = .refused (.valueTooWide n v))

/-- 10_state R30, R31: what a host read of a register returns, by number, `SRC`, `DST` and `COUNT` once written. That the value
read stands in `hostData` is the model's choice (log entry 20). -/
def Obligations.HostReadOfRegisters : Prop :=
  ∀ (s : State) (n : Nat) (rest : List HostAction), s.pending = .readReg n :: rest →
    (n = 0 → step s = .refused .readOfCommandPort) ∧
    (n = 1 → s.src.written = true → step s = .next { s with pending := rest, hostData := some s.src.value }) ∧
    (n = 2 → s.dst.written = true → step s = .next { s with pending := rest, hostData := some s.dst.value }) ∧
    (n = 3 → s.count.written = true → step s = .next { s with pending := rest, hostData := some s.count.value }) ∧
    (n = 4 → step s = .next { s with pending := rest, hostData := some s.status.toNat }) ∧
    (n = 5 → step s = .next { s with pending := rest, hostData := some s.cap.toNat }) ∧
    (6 ≤ n → step s = .refused (.reservedRegister n))

/-- 10_state R31, R35, 93 U10, 60 R245: a host read of a never-written operand register completes with a value of its width
that is the same at every read until the next reset, and changes nothing but the value read; no step but a reset moves on to
other values. The form of the free value is the model's choice (log entry 4), and so is `hostData` (log entry 20). -/
def Obligations.NeverWrittenRegisterReadsFree : Prop :=
  (∀ s : State,
    (∃ v, v < 2 ^ s.platform.aw ∧ ∀ (u : State) (rest : List HostAction), u.platform = s.platform →
      u.freeEpoch = s.freeEpoch → u.src.written = false → u.pending = .readReg 1 :: rest →
      step u = .next { u with pending := rest, hostData := some v }) ∧
    (∃ v, v < 2 ^ s.platform.aw ∧ ∀ (u : State) (rest : List HostAction), u.platform = s.platform →
      u.freeEpoch = s.freeEpoch → u.dst.written = false → u.pending = .readReg 2 :: rest →
      step u = .next { u with pending := rest, hostData := some v }) ∧
    (∃ v, v < 2 ^ s.platform.cw ∧ ∀ (u : State) (rest : List HostAction), u.platform = s.platform →
      u.freeEpoch = s.freeEpoch → u.count.written = false → u.pending = .readReg 3 :: rest →
      step u = .next { u with pending := rest, hostData := some v })) ∧
  (∀ s t : State, step s = .next t → t.freeEpoch ≠ s.freeEpoch → ∃ p rest, s.pending = .reset p :: rest)

/-- 20_memory R50, R65: a byte the host writes is the byte it reads back, and every other byte is unchanged. By the model's
choice an address outside the address space faults (log entry 8), the byte must be plain memory (log entry 9), and the value
read stands in `hostData` (log entry 20). -/
def Obligations.HostMemoryByteReadsBack : Prop :=
  ∀ (s : State) (a : Nat) (b : Byte) (rest : List HostAction), s.pending = .memWrite a b :: .memRead a :: rest →
    (a < 2 ^ s.platform.aw → s.platform.isPlain a = true →
      ∃ t : State, RunsTo 2 s t ∧ t.hostData = some b.toNat ∧
        t = { s with pending := rest, hostData := t.hostData, mem := t.mem } ∧
        ∀ c, c ≠ a → Memory.read t.mem c = Memory.read s.mem c) ∧
    (2 ^ s.platform.aw ≤ a → step s = .fault (.noSuchAddress a))

/-- 10_state R28, 60 R233: `PROBE` may not change between reset and the check; after the check a change is not seen. That it
is then allowed is the model's reading (log entry 14). -/
def Obligations.ProbeIsStableUntilTheCheck : Prop :=
  ∀ (s : State) (p : Probe) (rest : List HostAction), s.pending = .driveProbe p :: rest →
    (s.cap.getLsbD 0 = false → p ≠ s.probe → step s = .refused .probeChanged) ∧
    (s.cap.getLsbD 0 = true → step s = .next { s with pending := rest, probe := p })

/-! ## Reset -/

/-- 70 R260, 10_state R35: reset clears `CAP` and `STATUS`, leaves the operand registers never written, and touches no
memory. That the reset brings the `PROBE` that holds from then on is the model's reading (log entry 14), and what becomes of
`pending`, `hostData`, `platform` and `freeEpoch` is the model's choice (log entries 4, 15). -/
def Obligations.ResetPutsTheBlockInItsResetState : Prop :=
  ∀ (s : State) (p : Probe) (rest : List HostAction), s.pending = .reset p :: rest →
    ∃ t : State, step s = .next t ∧ t.cap = 0b000#3 ∧ t.status = 0#1 ∧
      t.src.written = false ∧ t.dst.written = false ∧ t.count.written = false ∧
      t.mem = s.mem ∧ t.probe = p ∧ t.platform = s.platform ∧ t.pending = rest ∧
      t.hostData = s.hostData ∧ t.freeEpoch = s.freeEpoch + 1

/-- 70 R261: reset is the only event that clears `CAP.VALID`. -/
def Obligations.OnlyResetClearsValid : Prop :=
  ∀ s t : State, step s = .next t → s.cap.getLsbD 0 = true → t.cap.getLsbD 0 = false →
    ∃ p rest, s.pending = .reset p :: rest

/-- 10_state R35, 70 R260: the values of the registers at `State.reset` that the spec gives. -/
def Obligations.ResetRegisterValues : Prop :=
  State.reset.cap = 0b000#3 ∧ State.reset.status = 0#1 ∧
    State.reset.src.written = false ∧ State.reset.dst.written = false ∧ State.reset.count.written = false

/-! ## The capability check -/

/-- 40 R108: the three rows of `capcheck`. -/
def Obligations.CapcheckTable : Prop :=
  ∀ w0 w1 : Word,
    (w0 = 0x3FF00000#32 ∧ w1 = 0x00000000#32 → capcheck ⟨w0, w1⟩ = 0b111#3) ∧
    (w0 = 0x00000000#32 ∧ w1 = 0x3FF00000#32 → capcheck ⟨w0, w1⟩ = 0b011#3) ∧
    (¬ (w0 = 0x3FF00000#32 ∧ w1 = 0x00000000#32) → ¬ (w0 = 0x00000000#32 ∧ w1 = 0x3FF00000#32) →
      capcheck ⟨w0, w1⟩ = 0b001#3)

/-- 40 R102: a command with a meaning evaluates `capcheck` on the probe when `CAP.VALID` = 0, and leaves `CAP` otherwise. -/
def Obligations.LazyCheckIsMadeOnce : Prop :=
  ∀ (i : Instr) (s t : State), exec i s = .next t →
    (s.cap.getLsbD 0 = false → t.cap = capcheck s.probe) ∧ (s.cap.getLsbD 0 = true → t.cap = s.cap)

/-- 40 R107: `CAPCHK` completes in every state; `CAP` by the lazy check, `STATUS` by `CAP.IEEE`, nothing else changed. -/
def Obligations.CapchkCompletes : Prop :=
  ∀ s : State, ∃ c : BitVec 3,
    c = (if s.cap.getLsbD 0 = true then s.cap else capcheck s.probe) ∧
    exec .capchk s = .next { s with cap := c, status := if c.getLsbD 1 = true then 0#1 else 1#1 }

/-- 40 R103: when `CAP.IEEE` = 0 after the lazy check, every command sets `STATUS` to 1 and ends, whatever its operands. -/
def Obligations.UnsupportedHostFailsEveryCommand : Prop :=
  ∀ (i : Instr) (s : State), capIeee (lazyCap s) = false →
    exec i s = .next { s with cap := lazyCap s, status := 1#1 }

/-- 60 R237: once `CAP` says unsupported, it says so after any number of steps without a reset, and every command then
fails. -/
def Obligations.UnsupportedIsStickyUntilReset : Prop :=
  ∀ (n : Nat) (s t : State), s.cap = 0b001#3 → (∀ p, HostAction.reset p ∉ s.pending) → RunsTo n s t →
    t.cap = 0b001#3 ∧ ∀ i : Instr, exec i t = .next { t with status := 1#1 }

/-! ## Commands that convert nothing, and commands without a meaning -/

/-- 40 R104: on a supported host a `CVT` command with an absent buffer, or with `COUNT` = 0, sets `STATUS` to 0 and ends. -/
def Obligations.NoOperationSucceeds : Prop :=
  ∀ (k : Cvt) (dp sp : Bool) (s : State), capIeee (lazyCap s) = true →
    (sp = false ∨ dp = false ∨ (s.count.written = true ∧ s.count.value = 0)) →
    exec (k.instr dp sp) s = .next { s with cap := lazyCap s, status := 0#1 }

/-- 40 R101: a command that reads an operand register never written since reset has no meaning; a command that ends at step
3, 4 or 5 reads none of them. -/
def Obligations.NeverWrittenOperandHasNoMeaning : Prop :=
  (∀ (k : Cvt) (s : State), capIeee (lazyCap s) = true → s.count.written = false →
    ∃ r, exec (k.instr true true) s = .refused (.operandNeverWritten r)) ∧
  (∀ (k : Cvt) (s : State), capIeee (lazyCap s) = true → s.count.written = true → 0 < s.count.value →
    (s.src.written = false ∨ s.dst.written = false) →
    ∃ r, exec (k.instr true true) s = .refused (.operandNeverWritten r)) ∧
  (∀ (i : Instr) (s : State) (src dst count : OperandReg),
    (capIeee (lazyCap s) = false ∨ i = .capchk ∨ ∃ k : Cvt, ∃ dp sp, i = k.instr dp sp ∧ (sp = false ∨ dp = false)) →
    ∃ t, exec i s = .next t ∧
      exec i { s with src := src, dst := dst, count := count } = .next { t with src := src, dst := dst, count := count })

/-- 20_memory R60, R61: a `CVT` command that would reach its element loop with one of the preconditions P1, P2, P3, P4, P6
false has no meaning. P5 has no move in the model (log entry 10); which precondition is named is open here (log entry 12). -/
def Obligations.BrokenPreconditionHasNoMeaning : Prop :=
  ∀ (k : Cvt) (s : State), capIeee (lazyCap s) = true → s.count.written = true → s.src.written = true →
    s.dst.written = true → 0 < s.count.value → ¬ CvtReady k s →
    ∃ p, exec (k.instr true true) s = .refused (.preconditionFalse p)

/-! ## Conversions -/

/-- 41 R130, 40 R105, 20_memory R58: `CVT.S2H` completes, and every destination half is S2H of the source single as it was. -/
def Obligations.CvtS2HConvertsEveryElement : Prop :=
  ∀ s : State, CvtReady .s2h s →
    ∃ t : State, exec (.cvtS2H true true) s = .next t ∧
      t = { s with cap := lazyCap s, status := 0#1, mem := t.mem } ∧
      (∀ i, i < s.count.value →
        memRead2 s.platform.byteOrder t.mem (elementAddr s.dst.value 2 i) =
          s2h (memRead4 s.platform.byteOrder s.mem (elementAddr s.src.value 4 i))) ∧
      (∀ a, ¬ InRange s.dst.value (2 * s.count.value) a → Memory.read t.mem a = Memory.read s.mem a)

/-- 42 R150, 40 R105, 20_memory R57, R58: `CVT.D2H` completes, and every destination half is D2H of the high word of the
source double as it was. -/
def Obligations.CvtD2HConvertsEveryElement : Prop :=
  ∀ s : State, CvtReady .d2h s →
    ∃ t : State, exec (.cvtD2H true true) s = .next t ∧
      t = { s with cap := lazyCap s, status := 0#1, mem := t.mem } ∧
      (∀ i, i < s.count.value →
        memRead2 s.platform.byteOrder t.mem (elementAddr s.dst.value 2 i) =
          d2h (memRead4 s.platform.byteOrder s.mem
            (elementAddr s.src.value 8 i + if (lazyCap s).getLsbD 2 = true then 0 else 4))) ∧
      (∀ a, ¬ InRange s.dst.value (2 * s.count.value) a → Memory.read t.mem a = Memory.read s.mem a)

/-- 43 R170, 40 R105, 20_memory R58: `CVT.H2S` completes, and every destination single is H2S of the source half as it was. -/
def Obligations.CvtH2SConvertsEveryElement : Prop :=
  ∀ s : State, CvtReady .h2s s →
    ∃ t : State, exec (.cvtH2S true true) s = .next t ∧
      t = { s with cap := lazyCap s, status := 0#1, mem := t.mem } ∧
      (∀ i, i < s.count.value →
        memRead4 s.platform.byteOrder t.mem (elementAddr s.dst.value 4 i) =
          h2s (memRead2 s.platform.byteOrder s.mem (elementAddr s.src.value 2 i))) ∧
      (∀ a, ¬ InRange s.dst.value (4 * s.count.value) a → Memory.read t.mem a = Memory.read s.mem a)

/-- 44 R190, 40 R105, 20_memory R57, R58: `CVT.H2D` completes, and both words of every destination double are those of H2D of
the source half as it was, the low word 0. -/
def Obligations.CvtH2DConvertsEveryElement : Prop :=
  ∀ s : State, CvtReady .h2d s →
    ∃ t : State, exec (.cvtH2D true true) s = .next t ∧
      t = { s with cap := lazyCap s, status := 0#1, mem := t.mem } ∧
      (∀ i, i < s.count.value →
        memRead4 s.platform.byteOrder t.mem
            (elementAddr s.dst.value 8 i + if (lazyCap s).getLsbD 2 = true then 0 else 4) =
          (h2d s.platform.h2dNanHi (memRead2 s.platform.byteOrder s.mem (elementAddr s.src.value 2 i))).1 ∧
        memRead4 s.platform.byteOrder t.mem
            (elementAddr s.dst.value 8 i + if (lazyCap s).getLsbD 2 = true then 4 else 0) = 0x00000000#32) ∧
      (∀ a, ¬ InRange s.dst.value (8 * s.count.value) a → Memory.read t.mem a = Memory.read s.mem a)

/-- 20_memory R51, R58 (frame of the four conversions): every byte outside the destination elements reads as before, and a
form that converts nothing (unsupported host, absent buffer, N = 0) changes no byte. -/
def Obligations.ConversionStoresOnlyItsElements : Prop :=
  ∀ (k : Cvt) (dp sp : Bool) (s t : State), exec (k.instr dp sp) s = .next t →
    (∀ a, (∀ i, i < s.count.value → ¬ InRange (elementAddr s.dst.value (dstSize k) i) (dstSize k) a) →
      Memory.read t.mem a = Memory.read s.mem a) ∧
    ((capIeee (lazyCap s) = false ∨ sp = false ∨ dp = false ∨ s.count.value = 0) →
      ∀ a, Memory.read t.mem a = Memory.read s.mem a)

/-- 40 R106 (frame of all five commands): no command writes `SRC`, `DST`, `COUNT` or `PROBE`, or `CAP` once valid; `CAPCHK`, a
failing command and a no-operation change no memory. That `platform`, `pending`, `hostData` and `freeEpoch` are unchanged too
is the model's (log entries 1, 4, 6, 20). -/
def Obligations.NoCommandChangesItsOperands : Prop :=
  ∀ (i : Instr) (s t : State), exec i s = .next t →
    t.src = s.src ∧ t.dst = s.dst ∧ t.count = s.count ∧ t.probe = s.probe ∧ t.platform = s.platform ∧
    t.pending = s.pending ∧ t.hostData = s.hostData ∧ t.freeEpoch = s.freeEpoch ∧
    (s.cap.getLsbD 0 = true → t.cap = s.cap) ∧
    ((i = .capchk ∨ capIeee (lazyCap s) = false ∨
        ∃ k : Cvt, ∃ dp sp, i = k.instr dp sp ∧ (sp = false ∨ dp = false ∨ s.count.value = 0)) → t.mem = s.mem)

/-- 60 R236: no command traps, and a command that reports `UNSUPPORTED` has changed `STATUS` only, and `CAP` on the first
command. -/
def Obligations.NoCommandTraps : Prop :=
  (∀ (i : Instr) (s : State) (r : Fault), exec i s ≠ .fault r) ∧
  (∀ (i : Instr) (s t : State), exec i s = .next t → t.status = 1#1 →
    t = { s with cap := t.cap, status := 1#1 } ∧ (s.cap.getLsbD 0 = true → t.cap = s.cap))

/-- 42 R140, 20_memory R52, R58: two memories whose source doubles have the same high words give the same halves, whatever the
low words hold. -/
def Obligations.LowWordsNeverReachTheHalves : Prop :=
  ∀ (s t : State) (m : Memory), CvtReady .d2h s → exec (.cvtD2H true true) s = .next t →
    (∀ i, i < s.count.value →
      memRead4 s.platform.byteOrder m (hiAddr (capHhf (lazyCap s)) (elementAddr s.src.value 8 i)) =
        memRead4 s.platform.byteOrder s.mem (hiAddr (capHhf (lazyCap s)) (elementAddr s.src.value 8 i))) →
    ∃ t' : State, exec (.cvtD2H true true) { s with mem := m } = .next t' ∧
      ∀ a, InRange s.dst.value (2 * s.count.value) a → Memory.read t'.mem a = Memory.read t.mem a

/-- 45 R217: a command over `n + n'` elements has the effect on memory of one over the first `n` and one over the `n'` at the
successive addresses. -/
def Obligations.BatchIsRepeatedConversion : Prop :=
  ∀ (k : Cvt) (s t : State) (n n' : Nat), 0 < n → 0 < n' → s.count.value = n + n' → CvtReady k s →
    exec (k.instr true true) s = .next t →
    ∃ u v : State,
      exec (k.instr true true) { s with count := ⟨n, true⟩ } = .next u ∧
      exec (k.instr true true)
        { u with
          src := ⟨elementAddr s.src.value (srcSize k) n, true⟩
          dst := ⟨elementAddr s.dst.value (dstSize k) n, true⟩
          count := ⟨n', true⟩ } = .next v ∧
      ∀ a, Memory.read v.mem a = Memory.read t.mem a

/-- 45 R217: the same `CVT` command twice in a row leaves the memory that running it once leaves. -/
def Obligations.ConversionTwiceIsOnce : Prop :=
  ∀ (k : Cvt) (dp sp : Bool) (s t : State), exec (k.instr dp sp) s = .next t →
    ∃ u : State, exec (k.instr dp sp) t = .next u ∧ ∀ a, Memory.read u.mem a = Memory.read t.mem a

/-- 45 R218: halves converted to singles and back are the halves they were, NaNs becoming `0xFE00`. -/
def Obligations.BufferRoundTripThroughSingles : Prop :=
  ∀ (s : State) (c : Nat), CvtReady .h2s s →
    CvtReady .s2h { s with src := s.dst, dst := ⟨c, true⟩ } →
    ∃ t u : State, exec (.cvtH2S true true) s = .next t ∧
      exec (.cvtS2H true true) { t with src := s.dst, dst := ⟨c, true⟩ } = .next u ∧
      ∀ i, i < s.count.value →
        memRead2 s.platform.byteOrder u.mem (elementAddr c 2 i) =
          if halfIsNan (memRead2 s.platform.byteOrder s.mem (elementAddr s.src.value 2 i)) = true then 0xFE00#16
          else memRead2 s.platform.byteOrder s.mem (elementAddr s.src.value 2 i)

/-- 45 R218: halves converted to doubles and back are the halves they were, NaNs becoming `0xFE00`, for either word order and
either byte order. -/
def Obligations.BufferRoundTripThroughDoubles : Prop :=
  ∀ (s : State) (c : Nat), s.platform.wellFormed = true → CvtReady .h2d s →
    CvtReady .d2h { s with src := s.dst, dst := ⟨c, true⟩ } →
    ∃ t u : State, exec (.cvtH2D true true) s = .next t ∧
      exec (.cvtD2H true true) { t with src := s.dst, dst := ⟨c, true⟩ } = .next u ∧
      ∀ i, i < s.count.value →
        memRead2 s.platform.byteOrder u.mem (elementAddr c 2 i) =
          if halfIsNan (memRead2 s.platform.byteOrder s.mem (elementAddr s.src.value 2 i)) = true then 0xFE00#16
          else memRead2 s.platform.byteOrder s.mem (elementAddr s.src.value 2 i)

/-- 20_memory R64, 93 U20: the order of the two word writes of a double is not observable. -/
def Obligations.WordWriteOrderIsNotObservable : Prop :=
  ∀ (o : ByteOrder) (hhf : Bool) (m : Memory) (a : Nat) (hi lo : Word), Memory.wf m = true →
    memWrite4 o (memWrite4 o m (hiAddr hhf a) hi) (loAddr hhf a) lo =
      memWrite4 o (memWrite4 o m (loAddr hhf a) lo) (hiAddr hhf a) hi

/-- 20_memory R71: the layout examples, at every address and over every memory. -/
def Obligations.LayoutOfOnesInMemory : Prop :=
  ∀ (m : Memory) (a : Nat),
    (List.range 4).map (fun k => Memory.read (memWrite4 .little m a 0x3F800000#32) (a + k)) =
      [0x00#8, 0x00#8, 0x80#8, 0x3F#8] ∧
    (List.range 4).map (fun k => Memory.read (memWrite4 .big m a 0x3F800000#32) (a + k)) =
      [0x3F#8, 0x80#8, 0x00#8, 0x00#8] ∧
    (List.range 2).map (fun k => Memory.read (memWrite2 .little m a 0x3C00#16) (a + k)) = [0x00#8, 0x3C#8] ∧
    (List.range 2).map (fun k => Memory.read (memWrite2 .big m a 0x3C00#16) (a + k)) = [0x3C#8, 0x00#8] ∧
    ∀ (o : ByteOrder) (hhf : Bool),
      (List.range 8).map (fun k => Memory.read
          (memWrite4 o (memWrite4 o m (hiAddr hhf a) 0x3FF00000#32) (loAddr hhf a) 0x00000000#32) (a + k)) =
        match o, hhf with
        | .little, false => [0x00#8, 0x00#8, 0x00#8, 0x00#8, 0x00#8, 0x00#8, 0xF0#8, 0x3F#8]
        | .big, true => [0x3F#8, 0xF0#8, 0x00#8, 0x00#8, 0x00#8, 0x00#8, 0x00#8, 0x00#8]
        | .little, true => [0x00#8, 0x00#8, 0xF0#8, 0x3F#8, 0x00#8, 0x00#8, 0x00#8, 0x00#8]
        | .big, false => [0x00#8, 0x00#8, 0x00#8, 0x00#8, 0x3F#8, 0xF0#8, 0x00#8, 0x00#8]

/-! ## Invariants of the machine -/

/-- 10_state R37: `CAP` is written once and stays legal until reset; after a command it is valid, and `STATUS` = 1 exactly when
`CAP.IEEE` = 0; no command writes an operand register. -/
def Obligations.RegisterRulesOfEveryStep : Prop :=
  (∀ s t : State, step s = .next t → (∀ p rest, s.pending ≠ .reset p :: rest) → s.cap.getLsbD 0 = true →
    t.cap = s.cap) ∧
  (∀ s t : State, step s = .next t → capLegal s.cap = true → capLegal t.cap = true) ∧
  (∀ (i : Instr) (s t : State), exec i s = .next t →
    t.cap.getLsbD 0 = true ∧ (t.status = 1#1 ↔ t.cap.getLsbD 1 = false) ∧
    t.src = s.src ∧ t.dst = s.dst ∧ t.count = s.count)

/-- The invariant of the machine (10_state R27, R29, R37; 20_memory R50; 00_scope R9) is kept by every step, from every state
that meets it. The canonical form of the memory is the model's own (log entry 7). -/
def Obligations.EveryStepKeepsTheInvariant : Prop :=
  ∀ s t : State, s.Inv → step s = .next t → t.Inv

/-- The invariant holds at `State.reset`; the parameters, the contents of the operand registers and the memory there are the
model's choice (log entries 2, 3, 7). -/
def Obligations.ResetMeetsTheInvariant : Prop :=
  State.reset.Inv

/-- 00_scope R9, 20_memory R53: no step changes a parameter. -/
def Obligations.ParametersAreConstant : Prop :=
  ∀ s t : State, step s = .next t → t.platform = s.platform

/-- 10_state R36, 20_memory R51, 70 R260: memory changes only by a host write to it or by a command. -/
def Obligations.MemoryChangesOnlyByWritesAndCommands : Prop :=
  ∀ s t : State, step s = .next t →
    t.mem = s.mem ∨ (∃ a b rest, s.pending = .memWrite a b :: rest) ∨ (∃ v rest, s.pending = .writeReg 0 v :: rest)

/-! ## The encoders -/

/-- 41 R129: S2H by exponent field, `m` the mantissa field. -/
def Obligations.S2HByExponentField : Prop :=
  ∀ x : Word,
    ((singleExp x = 0 ∨ (1 ≤ singleExp x ∧ singleExp x ≤ 101)) → s2h x = x.extractLsb' 31 1 ++ 0x0000#15) ∧
    (singleExp x = 102 → s2h x = x.extractLsb' 31 1 ++ 0x0001#15) ∧
    (103 ≤ singleExp x → singleExp x ≤ 112 →
      (s2h x).toNat = 2 ^ 15 * (x.extractLsb' 31 1).toNat +
        ((2 ^ 23 + singleMant x) / 2 ^ (126 - singleExp x) + (2 ^ 23 + singleMant x) / 2 ^ (125 - singleExp x) % 2)) ∧
    (113 ≤ singleExp x → singleExp x ≤ 142 →
      (s2h x).toNat = 2 ^ 15 * (x.extractLsb' 31 1).toNat +
        (2 ^ 10 * (singleExp x - 112) + singleMant x / 2 ^ 13 + singleMant x / 2 ^ 12 % 2)) ∧
    (143 ≤ singleExp x → singleExp x ≤ 254 → s2h x = x.extractLsb' 31 1 ++ 0x7C00#15) ∧
    (singleExp x = 255 → singleMant x = 0 → s2h x = x.extractLsb' 31 1 ++ 0x7C00#15) ∧
    (singleExp x = 255 → singleMant x ≠ 0 → s2h x = 0xFE00#16)

/-- 42 R149, its table: D2H by the exponent field of the high word. -/
def Obligations.D2HByExponentField : Prop :=
  ∀ hi : Word,
    (doubleExp hi ≤ 997 → d2h hi = hi.extractLsb' 31 1 ++ 0x0000#15) ∧
    (doubleExp hi = 998 → d2h hi = hi.extractLsb' 31 1 ++ 0x0001#15) ∧
    (999 ≤ doubleExp hi → doubleExp hi ≤ 1008 →
      (d2h hi).toNat = 2 ^ 15 * (hi.extractLsb' 31 1).toNat +
        ((2 ^ 20 + doubleMantHi hi) / 2 ^ (1019 - doubleExp hi) +
          (2 ^ 20 + doubleMantHi hi) / 2 ^ (1018 - doubleExp hi) % 2)) ∧
    (1009 ≤ doubleExp hi → doubleExp hi ≤ 1038 →
      (d2h hi).toNat = 2 ^ 15 * (hi.extractLsb' 31 1).toNat +
        (2 ^ 10 * (doubleExp hi - 1008) + doubleMantHi hi / 2 ^ 10 + doubleMantHi hi / 2 ^ 9 % 2)) ∧
    (1039 ≤ doubleExp hi → doubleExp hi ≤ 2046 → d2h hi = hi.extractLsb' 31 1 ++ 0x7C00#15) ∧
    (doubleExp hi = 2047 → doubleMantHi hi = 0 → d2h hi = hi.extractLsb' 31 1 ++ 0x7C00#15) ∧
    (doubleExp hi = 2047 → doubleMantHi hi ≠ 0 → d2h hi = 0xFE00#16)

/-- 45 R207, for singles: S2H of a finite single is the nearest half, ties away from zero, and the signed infinity when the
rounded magnitude is 2^16 or more. The value of a denormal is 00_scope R13's general knowledge (log entry 17). -/
def Obligations.S2HRoundsToNearestTiesAway : Prop :=
  ∀ x : Word, singleExp x ≠ 255 →
    halfSign (s2h x) = wordSign x ∧
    (roundedMagnitude (singleMagnitude x) ≥ 2 ^ 16 → halfIsInf (s2h x) = true) ∧
    (roundedMagnitude (singleMagnitude x) < 2 ^ 16 →
      halfExp (s2h x) ≠ 31 ∧ halfMagnitude (s2h x) = roundedMagnitude (singleMagnitude x))

/-- 45 R207, 42 R149, for doubles: D2H of the high word is the nearest half to the whole 64-bit value, ties away from zero,
and the signed infinity when the rounded magnitude is 2^16 or more. The value of a denormal is 00_scope R13's general
knowledge (log entry 17). -/
def Obligations.D2HRoundsToNearestTiesAway : Prop :=
  ∀ hi lo : Word, doubleExp hi ≠ 2047 →
    halfSign (d2h hi) = wordSign hi ∧
    (roundedMagnitude (doubleMagnitude hi lo) ≥ 2 ^ 16 → halfIsInf (d2h hi) = true) ∧
    (roundedMagnitude (doubleMagnitude hi lo) < 2 ^ 16 →
      halfExp (d2h hi) ≠ 31 ∧ halfMagnitude (d2h hi) = roundedMagnitude (doubleMagnitude hi lo))

/-- 45 R208: the underflow thresholds of both encoders, in bits. -/
def Obligations.UnderflowThresholds : Prop :=
  (∀ x : Word, singleIsNan x = false →
    ((x.extractLsb' 0 31).toNat < 0x33000000 → s2h x = x.extractLsb' 31 1 ++ 0x0000#15) ∧
    (0x33000000 ≤ (x.extractLsb' 0 31).toNat → (x.extractLsb' 0 31).toNat < 0x33C00000 →
      s2h x = x.extractLsb' 31 1 ++ 0x0001#15) ∧
    ((x.extractLsb' 0 31).toNat = 0x33C00000 → s2h x = x.extractLsb' 31 1 ++ 0x0002#15)) ∧
  (∀ hi : Word, doubleHiIsNan hi = false →
    ((hi.extractLsb' 0 31).toNat < 0x3E600000 → d2h hi = hi.extractLsb' 31 1 ++ 0x0000#15) ∧
    (0x3E600000 ≤ (hi.extractLsb' 0 31).toNat → (hi.extractLsb' 0 31).toNat < 0x3E780000 →
      d2h hi = hi.extractLsb' 31 1 ++ 0x0001#15))

/-- 45 R209: the overflow thresholds of both encoders, in bits; below them the result of an input that is no NaN is finite, at
most `0x7BFF` in magnitude. -/
def Obligations.OverflowThresholds : Prop :=
  (∀ x : Word,
    (s2h x = x.extractLsb' 31 1 ++ 0x7C00#15 ↔ singleIsNan x = false ∧ 0x477FF000 ≤ (x.extractLsb' 0 31).toNat) ∧
    (singleIsNan x = false → (x.extractLsb' 0 31).toNat < 0x477FF000 → ((s2h x).extractLsb' 0 15).toNat ≤ 0x7BFF)) ∧
  (∀ hi : Word,
    (d2h hi = hi.extractLsb' 31 1 ++ 0x7C00#15 ↔ doubleHiIsNan hi = false ∧ 0x40EFFE00 ≤ (hi.extractLsb' 0 31).toNat) ∧
    (doubleHiIsNan hi = false → (hi.extractLsb' 0 31).toNat < 0x40EFFE00 → ((d2h hi).extractLsb' 0 15).toNat ≤ 0x7BFF))

/-- 45 R211: both encoders are monotone on the magnitude bits of inputs that are no NaN. -/
def Obligations.EncodersAreMonotone : Prop :=
  (∀ a b : Word, singleIsNan a = false → singleIsNan b = false →
    (a.extractLsb' 0 31).toNat ≤ (b.extractLsb' 0 31).toNat →
    ((s2h a).extractLsb' 0 15).toNat ≤ ((s2h b).extractLsb' 0 15).toNat) ∧
  (∀ a b : Word, doubleHiIsNan a = false → doubleHiIsNan b = false →
    (a.extractLsb' 0 31).toNat ≤ (b.extractLsb' 0 31).toNat →
    ((d2h a).extractLsb' 0 15).toNat ≤ ((d2h b).extractLsb' 0 15).toNat)

/-- 45 R212: each encoder produces every half that is no NaN, and no NaN but `0xFE00`. -/
def Obligations.ImageOfTheEncoders : Prop :=
  (∀ h : Half, halfIsNan h = false → (∃ x, s2h x = h) ∧ (∃ hi, d2h hi = h)) ∧
  (∃ x, s2h x = 0xFE00#16) ∧ (∃ hi, d2h hi = 0xFE00#16) ∧
  (∀ x : Word, halfIsNan (s2h x) = true → s2h x = 0xFE00#16) ∧
  (∀ hi : Word, halfIsNan (d2h hi) = true → d2h hi = 0xFE00#16)

/-- 45 R216: a finite double and a finite single of the same sign and the same magnitude encode to the same half, and so do
infinities of the same sign. The sign is a premise because +0 and -0 denote the same real value. The value of a denormal is
00_scope R13's general knowledge (log entry 17). -/
def Obligations.EncodersAgreeOnEqualValues : Prop :=
  (∀ x hi lo : Word, singleExp x ≠ 255 → doubleExp hi ≠ 2047 → wordSign x = wordSign hi →
    singleMagnitude x = doubleMagnitude hi lo → s2h x = d2h hi) ∧
  (∀ x hi : Word, singleExp x = 255 → singleMant x = 0 → doubleExp hi = 2047 → doubleMantHi hi = 0 →
    wordSign x = wordSign hi → s2h x = d2h hi)

/-! ## The decoders -/

/-- 43 R162 to R166: H2S by the class of the half, a denormal by its most significant bit `p`. -/
def Obligations.H2SByClass : Prop :=
  ∀ h : Half,
    (halfExp h = 0 → halfMant h = 0 → h2s h = h.extractLsb' 15 1 ++ 0#31) ∧
    (halfExp h = 0 → halfMant h ≠ 0 →
      wordSign (h2s h) = halfSign h ∧ singleExp (h2s h) = 103 + Nat.log2 (halfMant h) ∧
      singleMant (h2s h) =
        (halfMant h - 2 ^ Nat.log2 (halfMant h)) * 2 ^ (10 - Nat.log2 (halfMant h)) * 2 ^ 13) ∧
    (1 ≤ halfExp h → halfExp h ≤ 30 →
      wordSign (h2s h) = halfSign h ∧ singleExp (h2s h) = halfExp h + 112 ∧ singleMant (h2s h) = halfMant h * 2 ^ 13) ∧
    (halfExp h = 31 → halfMant h = 0 → h2s h = h.extractLsb' 15 1 ++ 0x7F800000#31) ∧
    (halfExp h = 31 → halfMant h ≠ 0 → h2s h = 0xFFC00000#32)

/-- 44 R180 to R185: H2D by the class of the half, a denormal by its most significant bit `p`; the low word is always 0. -/
def Obligations.H2DByClass : Prop :=
  ∀ (nanHi : Word) (h : Half),
    (h2d nanHi h).2 = 0#32 ∧
    (halfExp h = 0 → halfMant h = 0 → (h2d nanHi h).1 = h.extractLsb' 15 1 ++ 0#31) ∧
    (halfExp h = 0 → halfMant h ≠ 0 →
      wordSign (h2d nanHi h).1 = halfSign h ∧ doubleExp (h2d nanHi h).1 = 999 + Nat.log2 (halfMant h) ∧
      doubleMantHi (h2d nanHi h).1 =
        (halfMant h - 2 ^ Nat.log2 (halfMant h)) * 2 ^ (10 - Nat.log2 (halfMant h)) * 2 ^ 10) ∧
    (1 ≤ halfExp h → halfExp h ≤ 30 →
      wordSign (h2d nanHi h).1 = halfSign h ∧ doubleExp (h2d nanHi h).1 = halfExp h + 1008 ∧
      doubleMantHi (h2d nanHi h).1 = halfMant h * 2 ^ 10) ∧
    (halfExp h = 31 → halfMant h = 0 → (h2d nanHi h).1 = h.extractLsb' 15 1 ++ 0x7FF00000#31) ∧
    (halfExp h = 31 → halfMant h ≠ 0 → (h2d nanHi h).1 = nanHi)

/-- 45 R205: widening to singles is exact, and injective on the halves that are no NaN; no result is a denormal, and the low
13 bits of every result are 0. The value of a half denormal is 00_scope R13's general knowledge (log entry 17). -/
def Obligations.WideningToSinglesIsExact : Prop :=
  (∀ h : Half, halfExp h ≠ 31 →
    singleExp (h2s h) ≠ 255 ∧ wordSign (h2s h) = halfSign h ∧ singleMagnitude (h2s h) = halfMagnitude h) ∧
  (∀ h : Half, halfIsInf h = true →
    wordSign (h2s h) = halfSign h ∧ singleExp (h2s h) = 255 ∧ singleMant (h2s h) = 0) ∧
  (∀ h h' : Half, halfIsNan h = false → halfIsNan h' = false → h2s h = h2s h' → h = h') ∧
  (∀ h : Half, (h2s h).extractLsb' 0 13 = 0#13 ∧ (singleExp (h2s h) = 0 → singleMant (h2s h) = 0))

/-- 45 R205: widening to doubles is exact, and injective on the halves that are no NaN; no result is a denormal, and bits 9:0
of the high word are 0 but for the NaN result. The value of a half denormal is 00_scope R13's general knowledge (log entry
17). -/
def Obligations.WideningToDoublesIsExact : Prop :=
  (∀ (nanHi : Word) (h : Half), halfExp h ≠ 31 →
    doubleExp (h2d nanHi h).1 ≠ 2047 ∧ wordSign (h2d nanHi h).1 = halfSign h ∧
    doubleMagnitude (h2d nanHi h).1 (h2d nanHi h).2 = halfMagnitude h) ∧
  (∀ (nanHi : Word) (h : Half), halfIsInf h = true →
    wordSign (h2d nanHi h).1 = halfSign h ∧ doubleExp (h2d nanHi h).1 = 2047 ∧
    doubleMant (h2d nanHi h).1 (h2d nanHi h).2 = 0) ∧
  (∀ (nanHi : Word) (h h' : Half), halfIsNan h = false → halfIsNan h' = false → h2d nanHi h = h2d nanHi h' → h = h') ∧
  (∀ (nanHi : Word) (h : Half), halfIsNan h = false →
    (h2d nanHi h).1.extractLsb' 0 10 = 0#10 ∧ (doubleExp (h2d nanHi h).1 = 0 → doubleMantHi (h2d nanHi h).1 = 0))

/-- 44 R186: H2D against H2S, for a half that is no NaN: the same sign, the exponent field 896 higher but for zeros and
infinities, and the mantissa moved up 29 bits. -/
def Obligations.H2DAgreesWithH2S : Prop :=
  ∀ (nanHi : Word) (h : Half), halfIsNan h = false →
    wordSign (h2d nanHi h).1 = wordSign (h2s h) ∧
    doubleMant (h2d nanHi h).1 (h2d nanHi h).2 = singleMant (h2s h) * 2 ^ 29 ∧
    (singleExp (h2s h) = 0 → doubleExp (h2d nanHi h).1 = 0) ∧
    (singleExp (h2s h) = 255 → doubleExp (h2d nanHi h).1 = 2047) ∧
    (singleExp (h2s h) ≠ 0 → singleExp (h2s h) ≠ 255 → doubleExp (h2d nanHi h).1 = singleExp (h2s h) + 896)

/-! ## Round trips and symmetry -/

/-- 45 R206, which the spec derives from its R205 and R207: every half that is no NaN returns from either wide format as it
was, and every NaN returns as `0xFE00`, for any legal `H2D_NAN_HI`. -/
def Obligations.HalvesSurviveTheRoundTrip : Prop :=
  (∀ h : Half, s2h (h2s h) = if halfIsNan h = true then 0xFE00#16 else h) ∧
  (∀ (nanHi : Word) (h : Half), isNanHighWord nanHi = true →
    d2h (h2d nanHi h).1 = if halfIsNan h = true then 0xFE00#16 else h)

/-- 45 R215: a wide pattern survives the round trip through halves exactly when it is in the image of the decoder. -/
def Obligations.WideRoundTripFixesTheDecoderImage : Prop :=
  (∀ x : Word, h2s (s2h x) = x ↔ ∃ h, x = h2s h) ∧
  (∀ (nanHi hi lo : Word), isNanHighWord nanHi = true →
    (h2d nanHi (d2h hi) = (hi, lo) ↔ ∃ h, (hi, lo) = h2d nanHi h))

/-- 45 R204: flipping the sign of an input that is no NaN flips the sign of the result and nothing else; the result of a NaN
does not depend on its sign. -/
def Obligations.ConversionsAreSignSymmetric : Prop :=
  (∀ x : Word, singleIsNan x = false →
    s2h (x ^^^ 0x80000000#32) = s2h x ^^^ 0x8000#16 ∧ halfSign (s2h x) = wordSign x) ∧
  (∀ hi : Word, doubleHiIsNan hi = false →
    d2h (hi ^^^ 0x80000000#32) = d2h hi ^^^ 0x8000#16 ∧ halfSign (d2h hi) = wordSign hi) ∧
  (∀ h : Half, halfIsNan h = false →
    h2s (h ^^^ 0x8000#16) = h2s h ^^^ 0x80000000#32 ∧ wordSign (h2s h) = halfSign h) ∧
  (∀ (nanHi : Word) (h : Half), halfIsNan h = false →
    (h2d nanHi (h ^^^ 0x8000#16)).1 = (h2d nanHi h).1 ^^^ 0x80000000#32 ∧ wordSign (h2d nanHi h).1 = halfSign h)

/-- 45 R214: the one NaN each conversion produces, and the double NaN with its payload only in the low word, which encodes as
an infinity. -/
def Obligations.NansAreCanonical : Prop :=
  (∀ x : Word, singleIsNan x = true → s2h x = 0xFE00#16) ∧
  (∀ hi : Word, doubleHiIsNan hi = true → d2h hi = 0xFE00#16) ∧
  (∀ hi lo : Word, doubleExp hi = 2047 → doubleMantHi hi = 0 → doubleMant hi lo ≠ 0 →
    d2h hi = hi.extractLsb' 31 1 ++ 0x7C00#15) ∧
  (∀ h : Half, halfIsNan h = true → h2s h = 0xFFC00000#32) ∧
  (∀ (nanHi : Word) (h : Half), halfIsNan h = true → h2d nanHi h = (nanHi, 0#32))
end

