-- ==== Sys2Proof/Laws/State.lean ====
section
/-! SUPPORT. What each named update of the state does to each field, one lemma per field. -/

namespace Sys2Proof.Machine

@[simp] theorem lazyCheck_platform (s : State) : (lazyCheck s).platform = s.platform := rfl
@[simp] theorem lazyCheck_probe (s : State) : (lazyCheck s).probe = s.probe := rfl
@[simp] theorem lazyCheck_cap (s : State) : (lazyCheck s).cap = lazyCap s := rfl
@[simp] theorem lazyCheck_status (s : State) : (lazyCheck s).status = s.status := rfl
@[simp] theorem lazyCheck_src (s : State) : (lazyCheck s).src = s.src := rfl
@[simp] theorem lazyCheck_dst (s : State) : (lazyCheck s).dst = s.dst := rfl
@[simp] theorem lazyCheck_count (s : State) : (lazyCheck s).count = s.count := rfl
@[simp] theorem lazyCheck_mem (s : State) : (lazyCheck s).mem = s.mem := rfl
@[simp] theorem lazyCheck_hostData (s : State) : (lazyCheck s).hostData = s.hostData := rfl
@[simp] theorem lazyCheck_pending (s : State) : (lazyCheck s).pending = s.pending := rfl
@[simp] theorem lazyCheck_freeEpoch (s : State) : (lazyCheck s).freeEpoch = s.freeEpoch := rfl

@[simp] theorem failUnsupported_platform (s : State) : (failUnsupported s).platform = s.platform := rfl
@[simp] theorem failUnsupported_probe (s : State) : (failUnsupported s).probe = s.probe := rfl
@[simp] theorem failUnsupported_cap (s : State) : (failUnsupported s).cap = s.cap := rfl
@[simp] theorem failUnsupported_status (s : State) : (failUnsupported s).status = 1#1 := rfl
@[simp] theorem failUnsupported_src (s : State) : (failUnsupported s).src = s.src := rfl
@[simp] theorem failUnsupported_dst (s : State) : (failUnsupported s).dst = s.dst := rfl
@[simp] theorem failUnsupported_count (s : State) : (failUnsupported s).count = s.count := rfl
@[simp] theorem failUnsupported_mem (s : State) : (failUnsupported s).mem = s.mem := rfl
@[simp] theorem failUnsupported_hostData (s : State) : (failUnsupported s).hostData = s.hostData := rfl
@[simp] theorem failUnsupported_pending (s : State) : (failUnsupported s).pending = s.pending := rfl
@[simp] theorem failUnsupported_freeEpoch (s : State) : (failUnsupported s).freeEpoch = s.freeEpoch := rfl

@[simp] theorem finishOk_platform (s : State) : (finishOk s).platform = s.platform := rfl
@[simp] theorem finishOk_probe (s : State) : (finishOk s).probe = s.probe := rfl
@[simp] theorem finishOk_cap (s : State) : (finishOk s).cap = s.cap := rfl
@[simp] theorem finishOk_status (s : State) : (finishOk s).status = 0#1 := rfl
@[simp] theorem finishOk_src (s : State) : (finishOk s).src = s.src := rfl
@[simp] theorem finishOk_dst (s : State) : (finishOk s).dst = s.dst := rfl
@[simp] theorem finishOk_count (s : State) : (finishOk s).count = s.count := rfl
@[simp] theorem finishOk_mem (s : State) : (finishOk s).mem = s.mem := rfl
@[simp] theorem finishOk_hostData (s : State) : (finishOk s).hostData = s.hostData := rfl
@[simp] theorem finishOk_pending (s : State) : (finishOk s).pending = s.pending := rfl
@[simp] theorem finishOk_freeEpoch (s : State) : (finishOk s).freeEpoch = s.freeEpoch := rfl

@[simp] theorem resetBlock_platform (p : Probe) (s : State) : (resetBlock p s).platform = s.platform := rfl
@[simp] theorem resetBlock_probe (p : Probe) (s : State) : (resetBlock p s).probe = p := rfl
@[simp] theorem resetBlock_cap (p : Probe) (s : State) : (resetBlock p s).cap = 0b000#3 := rfl
@[simp] theorem resetBlock_status (p : Probe) (s : State) : (resetBlock p s).status = 0#1 := rfl
@[simp] theorem resetBlock_src (p : Probe) (s : State) : (resetBlock p s).src = OperandReg.neverWritten := rfl
@[simp] theorem resetBlock_dst (p : Probe) (s : State) : (resetBlock p s).dst = OperandReg.neverWritten := rfl
@[simp] theorem resetBlock_count (p : Probe) (s : State) : (resetBlock p s).count = OperandReg.neverWritten := rfl
@[simp] theorem resetBlock_mem (p : Probe) (s : State) : (resetBlock p s).mem = s.mem := rfl
@[simp] theorem resetBlock_hostData (p : Probe) (s : State) : (resetBlock p s).hostData = s.hostData := rfl
@[simp] theorem resetBlock_pending (p : Probe) (s : State) : (resetBlock p s).pending = s.pending := rfl
@[simp] theorem resetBlock_freeEpoch (p : Probe) (s : State) : (resetBlock p s).freeEpoch = s.freeEpoch + 1 := rfl

@[simp] theorem queueCommand_platform (v : Nat) (s : State) : (queueCommand v s).platform = s.platform := rfl
@[simp] theorem queueCommand_probe (v : Nat) (s : State) : (queueCommand v s).probe = s.probe := rfl
@[simp] theorem queueCommand_cap (v : Nat) (s : State) : (queueCommand v s).cap = s.cap := rfl
@[simp] theorem queueCommand_status (v : Nat) (s : State) : (queueCommand v s).status = s.status := rfl
@[simp] theorem queueCommand_src (v : Nat) (s : State) : (queueCommand v s).src = s.src := rfl
@[simp] theorem queueCommand_dst (v : Nat) (s : State) : (queueCommand v s).dst = s.dst := rfl
@[simp] theorem queueCommand_count (v : Nat) (s : State) : (queueCommand v s).count = s.count := rfl
@[simp] theorem queueCommand_mem (v : Nat) (s : State) : (queueCommand v s).mem = s.mem := rfl
@[simp] theorem queueCommand_hostData (v : Nat) (s : State) : (queueCommand v s).hostData = s.hostData := rfl
@[simp] theorem queueCommand_pending (v : Nat) (s : State) : (queueCommand v s).pending = .writeReg 0 v :: s.pending := rfl
@[simp] theorem queueCommand_freeEpoch (v : Nat) (s : State) : (queueCommand v s).freeEpoch = s.freeEpoch := rfl

@[simp] theorem holding_value (v : Nat) : (OperandReg.holding v).value = v := rfl
@[simp] theorem holding_written (v : Nat) : (OperandReg.holding v).written = true := rfl
@[simp] theorem neverWritten_value : OperandReg.neverWritten.value = 0 := rfl
@[simp] theorem neverWritten_written : OperandReg.neverWritten.written = false := rfl

theorem operandContent_written {r : OperandReg} (h : r.written = true) (number width epoch : Nat) :
    operandContent r number width epoch = r.value := if_pos h

/-- Two never-written registers of one number, width and epoch have one content: it is held from read to read. -/
theorem operandContent_free {r r' : OperandReg} (h : r.written = false) (h' : r'.written = false)
    (number width epoch : Nat) : operandContent r number width epoch = operandContent r' number width epoch := by
  simp [operandContent, h, h']

/-- The content of a never-written register fits its width. -/
theorem operandContent_free_lt {r : OperandReg} (h : r.written = false) (number width epoch : Nat) :
    operandContent r number width epoch < 2 ^ width := by
  simpa [operandContent, h] using Nat.mod_lt _ (Nat.two_pow_pos width)

/-- `CAP` after the lazy check depends on `CAP` and `PROBE` only. -/
theorem lazyCap_congr {s t : State} (hc : s.cap = t.cap) (hp : s.probe = t.probe) : lazyCap s = lazyCap t := by
  unfold lazyCap; rw [hc, hp]

end Sys2Proof.Machine
end

