-- ==== Sys2Proof/Laws/Memory.lean ====
section
/-! SUPPORT. The laws of the memory: read after write (for every list, canonical or not), the canonical form is kept, and two
canonical memories that read alike are equal. -/

namespace Sys2Proof.Machine

theorem read_erase (m : Memory) (a b : Nat) :
    Memory.read (Memory.erase m a) b = if b = a then unlistedByte else Memory.read m b := by
  induction m with
  | nil => simp [Memory.erase, Memory.read]
  | cons c rest ih =>
    obtain ⟨x, v⟩ := c
    by_cases hx : x = a
    · subst hx
      rw [Memory.erase, if_pos rfl, ih]
      by_cases hb : b = x
      · simp [hb]
      · simp [hb, Memory.read, Ne.symm hb]
    · rw [Memory.erase, if_neg hx, Memory.read, Memory.read, ih]
      by_cases hb : x = b
      · subst hb; simp [hx]
      · simp [hb]

/-- No entry of the erased address is left. -/
theorem erase_no_entry (m : Memory) (a : Nat) : ∀ c ∈ Memory.erase m a, c.1 ≠ a := by
  induction m with
  | nil => simp [Memory.erase]
  | cons c rest ih =>
    obtain ⟨x, v⟩ := c
    by_cases hx : x = a
    · rw [Memory.erase, if_pos hx]; exact ih
    · rw [Memory.erase, if_neg hx]
      intro c hc
      rcases List.mem_cons.mp hc with rfl | hc
      · exact hx
      · exact ih c hc

theorem read_place (m : Memory) (a : Nat) (v : Byte) (h : ∀ c ∈ m, c.1 ≠ a) (b : Nat) :
    Memory.read (Memory.place m a v) b = if b = a then v else Memory.read m b := by
  induction m with
  | nil =>
    by_cases hb : b = a
    · simp [Memory.place, Memory.read, hb]
    · simp [Memory.place, Memory.read, hb, Ne.symm hb]
  | cons c rest ih =>
    obtain ⟨x, w⟩ := c
    have hx : x ≠ a := h (x, w) (by simp)
    have ih' := ih (fun c hc => h c (List.mem_cons_of_mem _ hc))
    by_cases hlt : a < x
    · rw [Memory.place, if_pos hlt, Memory.read]
      by_cases hb : b = a
      · simp [hb]
      · simp [hb, Ne.symm hb]
    · rw [Memory.place, if_neg hlt, Memory.read, Memory.read, ih']
      by_cases hb : x = b
      · subst hb; simp [hx]
      · simp [hb]

/-- Read after write, at every address and for every list. -/
theorem read_write (m : Memory) (a : Nat) (v : Byte) (b : Nat) :
    Memory.read (Memory.write m a v) b = if b = a then v else Memory.read m b := by
  unfold Memory.write
  split
  · next hv => rw [read_erase, hv]
  · rw [read_place _ _ _ (erase_no_entry m a), read_erase]
    split <;> rfl

@[simp] theorem read_write_self (m : Memory) (a : Nat) (v : Byte) :
    Memory.read (Memory.write m a v) a = v := by
  rw [read_write, if_pos rfl]

theorem read_write_other (m : Memory) {a b : Nat} (v : Byte) (h : b ≠ a) :
    Memory.read (Memory.write m a v) b = Memory.read m b := by
  rw [read_write, if_neg h]

theorem risesFrom_mono {lo lo' : Nat} (m : Memory) (hle : lo ≤ lo') (h : Memory.risesFrom lo' m = true) :
    Memory.risesFrom lo m = true := by
  cases m with
  | nil => rfl
  | cons c rest =>
    obtain ⟨x, v⟩ := c
    simp only [Memory.risesFrom, Bool.and_eq_true, decide_eq_true_eq] at h ⊢
    exact ⟨⟨hle.trans h.1.1, h.1.2⟩, h.2⟩

theorem risesFrom_erase (m : Memory) (a : Nat) : ∀ {lo : Nat}, Memory.risesFrom lo m = true →
    Memory.risesFrom lo (Memory.erase m a) = true := by
  induction m with
  | nil => intro lo h; exact h
  | cons c rest ih =>
    obtain ⟨x, v⟩ := c
    intro lo h
    simp only [Memory.risesFrom, Bool.and_eq_true, decide_eq_true_eq] at h
    by_cases hx : x = a
    · rw [Memory.erase, if_pos hx]
      exact ih (risesFrom_mono rest (by omega) h.2)
    · rw [Memory.erase, if_neg hx]
      simp only [Memory.risesFrom, Bool.and_eq_true, decide_eq_true_eq]
      exact ⟨h.1, ih h.2⟩

theorem risesFrom_place (m : Memory) (a : Nat) (v : Byte) (hv : v ≠ unlistedByte) : ∀ {lo : Nat}, lo ≤ a →
    (∀ c ∈ m, c.1 ≠ a) → Memory.risesFrom lo m = true → Memory.risesFrom lo (Memory.place m a v) = true := by
  induction m with
  | nil => intro lo hlo _ _; simp [Memory.place, Memory.risesFrom, hlo, hv]
  | cons c rest ih =>
    obtain ⟨x, w⟩ := c
    intro lo hlo hne h
    have hx : x ≠ a := hne (x, w) (by simp)
    simp only [Memory.risesFrom, Bool.and_eq_true, decide_eq_true_eq] at h
    by_cases hlt : a < x
    · rw [Memory.place, if_pos hlt]
      simp only [Memory.risesFrom, Bool.and_eq_true, decide_eq_true_eq, bne_iff_ne]
      exact ⟨⟨hlo, hv⟩, ⟨hlt, by simpa using h.1.2⟩, h.2⟩
    · rw [Memory.place, if_neg hlt]
      simp only [Memory.risesFrom, Bool.and_eq_true, decide_eq_true_eq]
      exact ⟨h.1, ih (by omega) (fun c hc => hne c (List.mem_cons_of_mem _ hc)) h.2⟩

/-- A write keeps the canonical form. -/
theorem wf_write (m : Memory) (a : Nat) (v : Byte) (h : Memory.wf m = true) : Memory.wf (Memory.write m a v) = true := by
  unfold Memory.write
  split
  · exact risesFrom_erase m a h
  · next hv => exact risesFrom_place _ a v hv (Nat.zero_le a) (erase_no_entry m a) (risesFrom_erase m a h)

theorem mem_erase {m : Memory} {a : Nat} {c : Host.Cell} (h : c ∈ Memory.erase m a) : c ∈ m := by
  induction m with
  | nil => simp [Memory.erase] at h
  | cons d rest ih =>
    obtain ⟨x, v⟩ := d
    rw [Memory.erase] at h
    split at h
    · exact List.mem_cons_of_mem _ (ih h)
    · rcases List.mem_cons.mp h with rfl | h
      · exact List.mem_cons_self
      · exact List.mem_cons_of_mem _ (ih h)

theorem mem_place {m : Memory} {a : Nat} {v : Byte} {c : Host.Cell} (h : c ∈ Memory.place m a v) :
    c = (a, v) ∨ c ∈ m := by
  induction m with
  | nil => simpa [Memory.place] using h
  | cons d rest ih =>
    obtain ⟨x, w⟩ := d
    rw [Memory.place] at h
    split at h
    · rcases List.mem_cons.mp h with rfl | h
      · exact .inl rfl
      · exact .inr h
    · rcases List.mem_cons.mp h with rfl | h
      · exact .inr List.mem_cons_self
      · exact (ih h).imp_right (List.mem_cons_of_mem _)

/-- A write inside the address space keeps the memory inside it. -/
theorem within_write (m : Memory) (a : Nat) (v : Byte) {top : Nat} (ha : a < top) (h : Memory.within m top = true) :
    Memory.within (Memory.write m a v) top = true := by
  unfold Memory.within at h ⊢
  rw [List.all_eq_true] at h ⊢
  intro c hc
  unfold Memory.write at hc
  split at hc
  · exact h c (mem_erase hc)
  · rcases mem_place hc with rfl | hc
    · simpa using ha
    · exact h c (mem_erase hc)

theorem read_eq_unlisted_below (m : Memory) : ∀ {lo a : Nat}, Memory.risesFrom lo m = true → a < lo →
    Memory.read m a = unlistedByte := by
  induction m with
  | nil => intros; rfl
  | cons c rest ih =>
    obtain ⟨x, v⟩ := c
    intro lo a h ha
    simp only [Memory.risesFrom, Bool.and_eq_true, decide_eq_true_eq] at h
    rw [Memory.read, if_neg (by omega)]
    exact ih h.2 (by omega)

theorem risesFrom_ext : ∀ (m m' : Memory) {lo lo' : Nat}, Memory.risesFrom lo m = true → Memory.risesFrom lo' m' = true →
    (∀ a, Memory.read m a = Memory.read m' a) → m = m'
  | [], [], _, _, _, _, _ => rfl
  | [], (x, v) :: rest, _, _, _, h', hr => by
    simp only [Memory.risesFrom, Bool.and_eq_true, bne_iff_ne] at h'
    have := hr x
    simp only [Memory.read, if_true] at this
    exact absurd this.symm h'.1.2
  | (x, v) :: rest, [], _, _, h, _, hr => by
    simp only [Memory.risesFrom, Bool.and_eq_true, bne_iff_ne] at h
    have := hr x
    simp only [Memory.read, if_true] at this
    exact absurd this h.1.2
  | (x, v) :: rest, (y, w) :: rest', lo, lo', h, h', hr => by
    simp only [Memory.risesFrom, Bool.and_eq_true, decide_eq_true_eq, bne_iff_ne] at h h'
    have hxy : x = y := by
      rcases Nat.lt_trichotomy x y with hlt | heq | hgt
      · have hx := hr x
        rw [Memory.read, if_pos rfl, Memory.read, if_neg (by omega), read_eq_unlisted_below rest' h'.2 (by omega)] at hx
        exact absurd hx h.1.2
      · exact heq
      · have hy := hr y
        rw [Memory.read, if_neg (by omega), read_eq_unlisted_below rest h.2 (by omega), Memory.read, if_pos rfl] at hy
        exact absurd hy.symm h'.1.2
    subst hxy
    have hv : v = w := by simpa [Memory.read] using hr x
    subst hv
    have : rest = rest' := risesFrom_ext rest rest' h.2 h'.2 (fun a => by
      by_cases ha : a ≤ x
      · rw [read_eq_unlisted_below rest h.2 (by omega), read_eq_unlisted_below rest' h'.2 (by omega)]
      · have := hr a
        rwa [Memory.read, if_neg (by omega), Memory.read, if_neg (by omega)] at this)
    rw [this]

/-- Two canonical memories that read alike at every address are the same list. -/
theorem memory_ext {m m' : Memory} (h : Memory.wf m = true) (h' : Memory.wf m' = true)
    (hr : ∀ a, Memory.read m a = Memory.read m' a) : m = m' :=
  risesFrom_ext m m' h h' hr

end Sys2Proof.Machine
end

