-- ==== Sys2Proof/Laws/Units.lean ====
section
/-! SUPPORT. The laws of the 2- and 4-byte units in either byte order: read after write, the frame of a write, and that a read
looks at its own bytes only. -/

namespace Sys2Proof.Machine

theorem byteOffset_lt (o : ByteOrder) {n k : Nat} (h : k < n) : byteOffset o n k < n := by
  cases o <;> simp only [byteOffset] <;> omega

theorem byteOffset_inj (o : ByteOrder) {n j k : Nat} (hj : j < n) (hk : k < n) :
    byteOffset o n j = byteOffset o n k ↔ j = k := by
  cases o
  · simp only [byteOffset]
  · simp only [byteOffset]; omega

/-- A 2-byte write changes its two bytes only (20_memory R55). -/
theorem read_memWrite2_outside (o : ByteOrder) (m : Memory) (a : Nat) (v : BitVec 16) {b : Nat}
    (h : ¬ InRange a 2 b) : Memory.read (memWrite2 o m a v) b = Memory.read m b := by
  have h0 := byteOffset_lt o (n := 2) (k := 0) (by omega)
  have h1 := byteOffset_lt o (n := 2) (k := 1) (by omega)
  unfold InRange at h
  rw [memWrite2, read_write_other _ _ (by omega), read_write_other _ _ (by omega)]

/-- A 4-byte write changes its four bytes only (20_memory R55). -/
theorem read_memWrite4_outside (o : ByteOrder) (m : Memory) (a : Nat) (v : BitVec 32) {b : Nat}
    (h : ¬ InRange a 4 b) : Memory.read (memWrite4 o m a v) b = Memory.read m b := by
  have h0 := byteOffset_lt o (n := 4) (k := 0) (by omega)
  have h1 := byteOffset_lt o (n := 4) (k := 1) (by omega)
  have h2 := byteOffset_lt o (n := 4) (k := 2) (by omega)
  have h3 := byteOffset_lt o (n := 4) (k := 3) (by omega)
  unfold InRange at h
  rw [memWrite4, read_write_other _ _ (by omega), read_write_other _ _ (by omega), read_write_other _ _ (by omega),
    read_write_other _ _ (by omega)]

/-- The byte `k` of a 2-byte write (20_memory R55). -/
theorem read_memWrite2_byte (o : ByteOrder) (m : Memory) (a : Nat) (v : BitVec 16) {k : Nat} (h : k < 2) :
    Memory.read (memWrite2 o m a v) (a + byteOffset o 2 k) = v.extractLsb' (8 * k) 8 := by
  have inj := fun j hj => byteOffset_inj o (n := 2) (j := k) (k := j) h hj
  rw [memWrite2, read_write, read_write]
  simp only [Nat.add_left_cancel_iff, inj 0 (by omega), inj 1 (by omega)]
  have : k = 0 ∨ k = 1 := by omega
  rcases this with rfl | rfl <;> simp

/-- The byte `k` of a 4-byte write (20_memory R55). -/
theorem read_memWrite4_byte (o : ByteOrder) (m : Memory) (a : Nat) (v : BitVec 32) {k : Nat} (h : k < 4) :
    Memory.read (memWrite4 o m a v) (a + byteOffset o 4 k) = v.extractLsb' (8 * k) 8 := by
  have inj := fun j hj => byteOffset_inj o (n := 4) (j := k) (k := j) h hj
  rw [memWrite4, read_write, read_write, read_write, read_write]
  simp only [Nat.add_left_cancel_iff, inj 0 (by omega), inj 1 (by omega), inj 2 (by omega), inj 3 (by omega)]
  have : k = 0 ∨ k = 1 ∨ k = 2 ∨ k = 3 := by omega
  rcases this with rfl | rfl | rfl | rfl <;> simp

theorem join2 (v : BitVec 16) : v.extractLsb' 8 8 ++ v.extractLsb' 0 8 = v := by
  ext i hi
  simp only [BitVec.getElem_append, BitVec.getElem_extractLsb']
  split
  · simp [BitVec.getLsbD_eq_getElem, hi]
  · rw [show 8 + (i - 8) = i by omega, BitVec.getLsbD_eq_getElem hi]

theorem join4 (v : BitVec 32) :
    v.extractLsb' 24 8 ++ v.extractLsb' 16 8 ++ v.extractLsb' 8 8 ++ v.extractLsb' 0 8 = v := by
  ext i hi
  simp only [BitVec.getElem_append, BitVec.getElem_extractLsb']
  split
  · simp [BitVec.getLsbD_eq_getElem, hi]
  · split
    · rw [show 8 + (i - 8) = i by omega, BitVec.getLsbD_eq_getElem hi]
    · split
      · rw [show 16 + (i - 8 - 8) = i by omega, BitVec.getLsbD_eq_getElem hi]
      · rw [show 24 + (i - 8 - 8 - 8) = i by omega, BitVec.getLsbD_eq_getElem hi]

/-- A 2-byte unit reads as it was written, in either byte order. -/
@[simp] theorem memRead2_memWrite2 (o : ByteOrder) (m : Memory) (a : Nat) (v : BitVec 16) :
    memRead2 o (memWrite2 o m a v) a = v := by
  rw [memRead2, read_memWrite2_byte _ _ _ _ (by omega), read_memWrite2_byte _ _ _ _ (by omega)]
  exact join2 v

/-- A 4-byte unit reads as it was written, in either byte order. -/
@[simp] theorem memRead4_memWrite4 (o : ByteOrder) (m : Memory) (a : Nat) (v : BitVec 32) :
    memRead4 o (memWrite4 o m a v) a = v := by
  rw [memRead4, read_memWrite4_byte _ _ _ _ (by omega), read_memWrite4_byte _ _ _ _ (by omega),
    read_memWrite4_byte _ _ _ _ (by omega), read_memWrite4_byte _ _ _ _ (by omega)]
  exact join4 v

/-- A 2-byte read looks at its two bytes only (20_memory R54). -/
theorem memRead2_congr (o : ByteOrder) {m m' : Memory} {a : Nat}
    (h : ∀ b, InRange a 2 b → Memory.read m b = Memory.read m' b) : memRead2 o m a = memRead2 o m' a := by
  have h0 := byteOffset_lt o (n := 2) (k := 0) (by omega)
  have h1 := byteOffset_lt o (n := 2) (k := 1) (by omega)
  rw [memRead2, memRead2, h _ ⟨by omega, by omega⟩, h _ ⟨by omega, by omega⟩]

/-- A 4-byte read looks at its four bytes only (20_memory R54). -/
theorem memRead4_congr (o : ByteOrder) {m m' : Memory} {a : Nat}
    (h : ∀ b, InRange a 4 b → Memory.read m b = Memory.read m' b) : memRead4 o m a = memRead4 o m' a := by
  have h0 := byteOffset_lt o (n := 4) (k := 0) (by omega)
  have h1 := byteOffset_lt o (n := 4) (k := 1) (by omega)
  have h2 := byteOffset_lt o (n := 4) (k := 2) (by omega)
  have h3 := byteOffset_lt o (n := 4) (k := 3) (by omega)
  rw [memRead4, memRead4, h _ ⟨by omega, by omega⟩, h _ ⟨by omega, by omega⟩, h _ ⟨by omega, by omega⟩,
    h _ ⟨by omega, by omega⟩]

/-- Every byte of a unit is one of its numbered bytes. -/
theorem exists_byteOffset (o : ByteOrder) {n a b : Nat} (h : InRange a n b) : ∃ k, k < n ∧ b = a + byteOffset o n k := by
  unfold InRange at h
  cases o
  · exact ⟨b - a, by omega, by simp only [byteOffset]; omega⟩
  · exact ⟨n - 1 - (b - a), by omega, by simp only [byteOffset]; omega⟩

/-- What a 2-byte write leaves in its bytes does not depend on the memory before. -/
theorem memWrite2_inside (o : ByteOrder) (m m' : Memory) (a : Nat) (v : BitVec 16) {b : Nat} (h : InRange a 2 b) :
    Memory.read (memWrite2 o m a v) b = Memory.read (memWrite2 o m' a v) b := by
  obtain ⟨k, hk, rfl⟩ := exists_byteOffset o h
  rw [read_memWrite2_byte _ _ _ _ hk, read_memWrite2_byte _ _ _ _ hk]

/-- What a 4-byte write leaves in its bytes does not depend on the memory before. -/
theorem memWrite4_inside (o : ByteOrder) (m m' : Memory) (a : Nat) (v : BitVec 32) {b : Nat} (h : InRange a 4 b) :
    Memory.read (memWrite4 o m a v) b = Memory.read (memWrite4 o m' a v) b := by
  obtain ⟨k, hk, rfl⟩ := exists_byteOffset o h
  rw [read_memWrite4_byte _ _ _ _ hk, read_memWrite4_byte _ _ _ _ hk]

theorem wf_memWrite2 (o : ByteOrder) (m : Memory) (a : Nat) (v : BitVec 16) (h : Memory.wf m = true) :
    Memory.wf (memWrite2 o m a v) = true :=
  wf_write _ _ _ (wf_write _ _ _ h)

theorem wf_memWrite4 (o : ByteOrder) (m : Memory) (a : Nat) (v : BitVec 32) (h : Memory.wf m = true) :
    Memory.wf (memWrite4 o m a v) = true :=
  wf_write _ _ _ (wf_write _ _ _ (wf_write _ _ _ (wf_write _ _ _ h)))

theorem within_memWrite2 (o : ByteOrder) (m : Memory) (a : Nat) (v : BitVec 16) {top : Nat} (ha : a + 2 ≤ top)
    (h : Memory.within m top = true) : Memory.within (memWrite2 o m a v) top = true := by
  have h0 := byteOffset_lt o (n := 2) (k := 0) (by omega)
  have h1 := byteOffset_lt o (n := 2) (k := 1) (by omega)
  exact within_write _ _ _ (by omega) (within_write _ _ _ (by omega) h)

theorem within_memWrite4 (o : ByteOrder) (m : Memory) (a : Nat) (v : BitVec 32) {top : Nat} (ha : a + 4 ≤ top)
    (h : Memory.within m top = true) : Memory.within (memWrite4 o m a v) top = true := by
  have h0 := byteOffset_lt o (n := 4) (k := 0) (by omega)
  have h1 := byteOffset_lt o (n := 4) (k := 1) (by omega)
  have h2 := byteOffset_lt o (n := 4) (k := 2) (by omega)
  have h3 := byteOffset_lt o (n := 4) (k := 3) (by omega)
  exact within_write _ _ _ (by omega) (within_write _ _ _ (by omega) (within_write _ _ _ (by omega)
    (within_write _ _ _ (by omega) h)))

end Sys2Proof.Machine
end

