-- ==== Sys2Proof/Laws/Commands.lean ====
section
/-! SUPPORT. What each shared operation of the commands can do, said once: the element steps, the element loop, the
preconditions, the skeleton of a command, the host's actions. -/

namespace Sys2Proof.Machine

/-- What a proof needs of one pass of the element loop for conversion `k`: it writes nothing outside the destination element
(20_memory R58), what it writes there depends on the bytes of the source element only (R52, R58), and it keeps the canonical
form and the bounds of the memory. -/
structure StepFrame (f : ElementStep) (k : Cvt) : Prop where
  outside : ∀ p hhf m s t b, ¬ InRange t (dstSize k) b → Memory.read (f p hhf m s t) b = Memory.read m b
  inside : ∀ p hhf m m' s t, (∀ b, InRange s (srcSize k) b → Memory.read m b = Memory.read m' b) →
    ∀ b, InRange t (dstSize k) b → Memory.read (f p hhf m s t) b = Memory.read (f p hhf m' s t) b
  wf : ∀ p hhf m s t, Memory.wf m = true → Memory.wf (f p hhf m s t) = true
  within : ∀ p hhf m s t top, t + dstSize k ≤ top → Memory.within m top = true →
    Memory.within (f p hhf m s t) top = true

theorem hiAddr_bounds (hhf : Bool) (a : Nat) : a ≤ hiAddr hhf a ∧ hiAddr hhf a + 4 ≤ a + 8 := by
  cases hhf <;> simp [hiAddr]

theorem loAddr_bounds (hhf : Bool) (a : Nat) : a ≤ loAddr hhf a ∧ loAddr hhf a + 4 ≤ a + 8 := by
  cases hhf <;> simp [loAddr]

theorem elementS2H_frame : StepFrame elementS2H .s2h where
  outside _ _ _ _ _ _ h := read_memWrite2_outside _ _ _ _ h
  inside p hhf m m' s t h b hb := by
    simp only [elementS2H]
    rw [memRead4_congr p.byteOrder (fun b hb => h b hb)]
    exact memWrite2_inside _ _ _ _ _ hb
  wf _ _ _ _ _ h := wf_memWrite2 _ _ _ _ h
  within _ _ _ _ _ _ ha h := within_memWrite2 _ _ _ _ ha h

theorem elementD2H_frame : StepFrame elementD2H .d2h where
  outside _ _ _ _ _ _ h := read_memWrite2_outside _ _ _ _ h
  inside p hhf m m' s t h b hb := by
    simp only [elementD2H]
    rw [memRead4_congr p.byteOrder (a := hiAddr hhf s) (fun b hb => h b (by
        have := hiAddr_bounds hhf s
        simp only [InRange, srcSize] at hb ⊢
        omega))]
    exact memWrite2_inside _ _ _ _ _ hb
  wf _ _ _ _ _ h := wf_memWrite2 _ _ _ _ h
  within _ _ _ _ _ _ ha h := within_memWrite2 _ _ _ _ ha h

theorem elementH2S_frame : StepFrame elementH2S .h2s where
  outside _ _ _ _ _ _ h := read_memWrite4_outside _ _ _ _ h
  inside p hhf m m' s t h b hb := by
    simp only [elementH2S]
    rw [memRead2_congr p.byteOrder (fun b hb => h b hb)]
    exact memWrite4_inside _ _ _ _ _ hb
  wf _ _ _ _ _ h := wf_memWrite4 _ _ _ _ h
  within _ _ _ _ _ _ ha h := within_memWrite4 _ _ _ _ ha h

theorem elementH2D_frame : StepFrame elementH2D .h2d where
  outside p hhf m s t b h := by
    have hb := hiAddr_bounds hhf t
    have lb := loAddr_bounds hhf t
    simp only [InRange, dstSize] at h
    simp only [elementH2D]
    rw [read_memWrite4_outside _ _ _ _ (by unfold InRange; omega),
      read_memWrite4_outside _ _ _ _ (by unfold InRange; omega)]
  inside p hhf m m' s t h b hb := by
    simp only [elementH2D]
    rw [memRead2_congr p.byteOrder (fun b hb => h b hb)]
    by_cases hl : InRange (loAddr hhf t) 4 b
    · exact memWrite4_inside _ _ _ _ _ hl
    · rw [read_memWrite4_outside _ _ _ _ hl, read_memWrite4_outside _ _ _ _ hl]
      refine memWrite4_inside _ _ _ _ _ ?_
      cases hhf <;> simp only [InRange, dstSize, hiAddr, loAddr, if_true, if_false, Bool.false_eq_true] at * <;> omega
  wf _ _ _ _ _ h := wf_memWrite4 _ _ _ _ (wf_memWrite4 _ _ _ _ h)
  within p hhf m s t top ha h := by
    have hb := hiAddr_bounds hhf t
    have lb := loAddr_bounds hhf t
    simp only [dstSize] at ha
    exact within_memWrite4 _ _ _ _ (by omega) (within_memWrite4 _ _ _ _ (by omega) h)

/-- An element of the first `n` lies in the first `size * n` bytes of its buffer (20_memory R56). -/
theorem element_end_le {base size n i : Nat} (h : i < n) : elementAddr base size i + size ≤ base + size * n := by
  unfold elementAddr
  have : size * (i + 1) ≤ size * n := Nat.mul_le_mul_left size h
  rw [Nat.mul_add, Nat.mul_one] at this
  omega

theorem element_base_le (base size i : Nat) : base ≤ elementAddr base size i :=
  Nat.le_add_right _ _

/-- The element loop, taken apart at its end instead of its beginning. -/
theorem convertFrom_succ (f : ElementStep) (p : Platform) (hhf : Bool) (k : Cvt) (src dst n i : Nat) (m : Memory) :
    convertFrom f p hhf k src dst (n + 1) i m =
      f p hhf (convertFrom f p hhf k src dst n i m) (elementAddr src (srcSize k) (i + n))
        (elementAddr dst (dstSize k) (i + n)) := by
  induction n generalizing i m with
  | zero => rfl
  | succ n ih =>
    rw [convertFrom, ih (i + 1), show i + 1 + n = i + (n + 1) by omega]
    rfl

/-- The element loop in two parts. -/
theorem convertFrom_add (f : ElementStep) (p : Platform) (hhf : Bool) (k : Cvt) (src dst n n' i : Nat) (m : Memory) :
    convertFrom f p hhf k src dst (n + n') i m =
      convertFrom f p hhf k src dst n' (i + n) (convertFrom f p hhf k src dst n i m) := by
  induction n' with
  | zero => rfl
  | succ n' ih => rw [← Nat.add_assoc, convertFrom_succ, convertFrom_succ, ih, Nat.add_assoc i n n']

/-- The element loop writes nothing outside its destination elements. -/
theorem convertFrom_outside {f : ElementStep} {k : Cvt} (hf : StepFrame f k) (p : Platform) (hhf : Bool)
    (src dst n i : Nat) (m : Memory) {b : Nat}
    (h : ∀ j, j < n → ¬ InRange (elementAddr dst (dstSize k) (i + j)) (dstSize k) b) :
    Memory.read (convertFrom f p hhf k src dst n i m) b = Memory.read m b := by
  induction n with
  | zero => rfl
  | succ n ih =>
    rw [convertFrom_succ, hf.outside _ _ _ _ _ _ (h n (by omega)), ih (fun j hj => h j (by omega))]

/-- Elements with different indexes have no byte in common. -/
theorem elements_disjoint {base size i j b : Nat} (hij : i ≠ j) (hi : InRange (elementAddr base size i) size b) :
    ¬ InRange (elementAddr base size j) size b := by
  unfold InRange elementAddr at *
  rcases Nat.lt_or_gt_of_ne hij with h | h
  · have : size * (i + 1) ≤ size * j := Nat.mul_le_mul_left _ h
    rw [Nat.mul_add, Nat.mul_one] at this
    omega
  · have : size * (j + 1) ≤ size * i := Nat.mul_le_mul_left _ h
    rw [Nat.mul_add, Nat.mul_one] at this
    omega

/-- The element loop is a pointwise map (40 R105): with the source and the destination disjoint, the bytes of destination
element `i` are what one pass over the memory before the command writes there. -/
theorem convertFrom_element {f : ElementStep} {k : Cvt} (hf : StepFrame f k) (p : Platform) (hhf : Bool)
    {src dst n : Nat} (m : Memory)
    (hd : ∀ a, InRange src (srcSize k * n) a → ¬ InRange dst (dstSize k * n) a) {i : Nat} (hi : i < n) {b : Nat}
    (hb : InRange (elementAddr dst (dstSize k) i) (dstSize k) b) :
    Memory.read (convertFrom f p hhf k src dst n 0 m) b =
      Memory.read (f p hhf m (elementAddr src (srcSize k) i) (elementAddr dst (dstSize k) i)) b := by
  obtain ⟨n', rfl⟩ : ∃ n', n = i + 1 + n' := ⟨n - (i + 1), by omega⟩
  rw [convertFrom_add, convertFrom_outside hf _ _ _ _ _ _ _
    (fun j _ => elements_disjoint (by omega) hb), convertFrom_succ, Nat.zero_add]
  refine hf.inside _ _ _ _ _ _ (fun a ha => convertFrom_outside hf _ _ _ _ _ _ _ (fun j hj hc => ?_)) b hb
  have hs := element_end_le (base := src) (size := srcSize k) hi
  have hsb := element_base_le src (srcSize k) i
  have ht := element_end_le (base := dst) (size := dstSize k) (show 0 + j < i + 1 + n' by omega)
  have htb := element_base_le dst (dstSize k) (0 + j)
  unfold InRange at ha hc
  exact hd a ⟨by omega, by omega⟩ ⟨by omega, by omega⟩

theorem convertFrom_wf {f : ElementStep} {k : Cvt} (hf : StepFrame f k) (p : Platform) (hhf : Bool)
    (src dst n i : Nat) (m : Memory) (h : Memory.wf m = true) :
    Memory.wf (convertFrom f p hhf k src dst n i m) = true := by
  induction n with
  | zero => exact h
  | succ n ih => rw [convertFrom_succ]; exact hf.wf _ _ _ _ _ ih

theorem convertFrom_within {f : ElementStep} {k : Cvt} (hf : StepFrame f k) (p : Platform) (hhf : Bool)
    (src dst n : Nat) (m : Memory) {top : Nat} (ht : dst + dstSize k * n ≤ top) (h : Memory.within m top = true) :
    Memory.within (convertFrom f p hhf k src dst n 0 m) top = true := by
  induction n with
  | zero => exact h
  | succ n ih =>
    rw [convertFrom_succ, Nat.zero_add]
    have hle : elementAddr dst (dstSize k) n + dstSize k ≤ dst + dstSize k * (n + 1) := element_end_le (Nat.lt_succ_self n)
    refine hf.within _ _ _ _ _ _ (by omega) (ih ?_)
    have : dstSize k * n ≤ dstSize k * (n + 1) := Nat.mul_le_mul_left _ (Nat.le_succ n)
    omega

theorem allBytes_iff (ok : Nat → Bool) (base n : Nat) :
    allBytes ok base n = true ↔ ∀ a, InRange base n a → ok a = true := by
  induction n with
  | zero => simp only [allBytes, InRange, true_iff]; intro a h; omega
  | succ n ih =>
    simp only [allBytes, Bool.and_eq_true, ih]
    constructor
    · rintro ⟨hn, hr⟩ a ha
      unfold InRange at ha
      by_cases h : a = base + n
      · exact h ▸ hn
      · exact hr a ⟨ha.1, by omega⟩
    · intro h
      exact ⟨h _ ⟨by omega, by omega⟩, fun a ha => h a ⟨ha.1, by have := ha.2; omega⟩⟩

theorem srcSize_pos (k : Cvt) : 0 < srcSize k := by cases k <;> decide

theorem dstSize_pos (k : Cvt) : 0 < dstSize k := by cases k <;> decide

/-- Two ranges of at least one byte have no byte in common exactly when one ends before the other begins. -/
theorem ranges_disjoint_iff {s ns t nt : Nat} (hs : 0 < ns) (ht : 0 < nt) :
    (∀ a, InRange s ns a → ¬ InRange t nt a) ↔ s + ns ≤ t ∨ t + nt ≤ s := by
  unfold InRange
  constructor
  · intro h
    by_contra hc
    by_cases hle : s ≤ t
    · exact h t ⟨by omega, by omega⟩ ⟨by omega, by omega⟩
    · exact h s ⟨by omega, by omega⟩ ⟨by omega, by omega⟩
  · intro h a ha hb
    omega

/-- No precondition is broken exactly when P1, P2, P3, P4 and P6 of 20_memory R60 hold. -/
theorem brokenPrecondition_eq_none_iff (p : Platform) (k : Cvt) (src dst n : Nat) (hn : 0 < n) :
    brokenPrecondition p k src dst n = none ↔
      (src + srcSize k * n ≤ 2 ^ p.aw ∧ dst + dstSize k * n ≤ 2 ^ p.aw) ∧
      ((∀ a, InRange src (srcSize k * n) a → p.isAccessible a = true) ∧
        (∀ a, InRange dst (dstSize k * n) a → p.isAccessible a = true)) ∧
      (src % baseAlign (srcSize k) = 0 ∧ dst % baseAlign (dstSize k) = 0) ∧
      (∀ a, InRange src (srcSize k * n) a → ¬ InRange dst (dstSize k * n) a) ∧
      ((∀ a, InRange src (srcSize k * n) a → p.isPlain a = true) ∧
        (∀ a, InRange dst (dstSize k * n) a → p.isPlain a = true)) := by
  rw [ranges_disjoint_iff (Nat.mul_pos (srcSize_pos k) hn) (Nat.mul_pos (dstSize_pos k) hn)]
  simp only [← allBytes_iff]
  unfold brokenPrecondition
  split_ifs <;> simp_all

/-- What a `CVT` command with a meaning can do: fail, do nothing, or run its element loop; in each case `CAP` is what the
lazy check leaves (40 R100). -/
theorem convertCommand_next {f : ElementStep} {k : Cvt} {dp sp : Bool} {s t : State}
    (h : convertCommand f k dp sp s = .next t) :
    (capIeee (lazyCap s) = false ∧ t = failUnsupported (lazyCheck s)) ∨
    (capIeee (lazyCap s) = true ∧ (sp = false ∨ dp = false ∨ s.count.value = 0) ∧ t = finishOk (lazyCheck s)) ∨
    (capIeee (lazyCap s) = true ∧ sp = true ∧ dp = true ∧ CvtReady k s ∧
      t = finishOk { lazyCheck s with
        mem := convertFrom f s.platform (capHhf (lazyCap s)) k s.src.value s.dst.value s.count.value 0 s.mem }) := by
  unfold convertCommand at h
  split at h
  · next hi => cases h; exact .inl ⟨hi, rfl⟩
  · next hi =>
    have hi : capIeee (lazyCap s) = true := by simpa using hi
    unfold convertSupported at h
    split at h
    · next hp => cases h; exact .inr (.inl ⟨hi, hp.elim .inl (fun h => .inr (.inl h)), rfl⟩)
    · next hp =>
      split at h
      · cases h
      · next hcw =>
        split at h
        · next hz => cases h; exact .inr (.inl ⟨hi, .inr (.inr hz), rfl⟩)
        · next hz =>
          unfold convertBuffers at h
          split at h
          · cases h
          · next hsw =>
            split at h
            · cases h
            · next hdw =>
              split at h
              · cases h
              · next hb =>
                cases h
                simp only [lazyCheck_count, lazyCheck_src, lazyCheck_dst, lazyCheck_platform] at *
                have hn : 0 < s.count.value := Nat.pos_of_ne_zero hz
                obtain ⟨h1, h2, h3, h4, h6⟩ := (brokenPrecondition_eq_none_iff _ _ _ _ _ hn).mp hb
                refine .inr (.inr ⟨hi, ?_, ?_, ⟨hi, ?_, ?_, ?_, hn, h1.1, h1.2, h2.1, h2.2, h3.1, h3.2, h4, h6.1, h6.2⟩, rfl⟩)
                all_goals simp_all

/-- `CvtReady`, by computation. -/
theorem cvtReady_iff (k : Cvt) (s : State) : CvtReady k s ↔
    capIeee (lazyCap s) = true ∧ s.src.written = true ∧ s.dst.written = true ∧ s.count.written = true ∧
      0 < s.count.value ∧ brokenPrecondition s.platform k s.src.value s.dst.value s.count.value = none := by
  constructor
  · intro h
    exact ⟨h.supported, h.src_written, h.dst_written, h.count_written, h.count_pos,
      (brokenPrecondition_eq_none_iff _ _ _ _ _ h.count_pos).mpr
        ⟨⟨h.src_range, h.dst_range⟩, ⟨h.src_accessible, h.dst_accessible⟩, ⟨h.src_aligned, h.dst_aligned⟩,
          h.buffers_disjoint, ⟨h.src_plain, h.dst_plain⟩⟩⟩
  · rintro ⟨hi, hs, hd, hc, hn, hb⟩
    obtain ⟨h1, h2, h3, h4, h6⟩ := (brokenPrecondition_eq_none_iff _ _ _ _ _ hn).mp hb
    exact ⟨hi, hs, hd, hc, hn, h1.1, h1.2, h2.1, h2.2, h3.1, h3.2, h4, h6.1, h6.2⟩

/-- A `CVT` command with both buffers present whose preconditions hold runs its element loop. -/
theorem convertCommand_ready (f : ElementStep) {k : Cvt} {s : State} (h : CvtReady k s) :
    convertCommand f k true true s = .next (finishOk { lazyCheck s with
        mem := convertFrom f s.platform (capHhf (lazyCap s)) k s.src.value s.dst.value s.count.value 0 s.mem }) := by
  obtain ⟨hi, hs, hd, hc, hn, hb⟩ := (cvtReady_iff k s).mp h
  have hn : s.count.value ≠ 0 := by omega
  simp [convertCommand, convertSupported, convertBuffers, hi, hc, hs, hd, hn, hb]

/-- No `CVT` command faults (60 R236). -/
theorem convertCommand_no_fault (f : ElementStep) (k : Cvt) (dp sp : Bool) (s : State) (r : Fault) :
    convertCommand f k dp sp s ≠ .fault r := by
  unfold convertCommand convertSupported convertBuffers
  split
  · simp
  · split
    · simp
    · split
      · simp
      · split
        · simp
        · split
          · simp
          · split
            · simp
            · split <;> simp

/-- `capcheck` answers one of the three checked values of `CAP` (40 R108). -/
theorem capcheck_cases (p : Probe) : capcheck p = 0b111#3 ∨ capcheck p = 0b011#3 ∨ capcheck p = 0b001#3 := by
  unfold capcheck
  split
  · exact .inl rfl
  · split
    · exact .inr (.inl rfl)
    · exact .inr (.inr rfl)

/-- After the lazy check `CAP.VALID` = 1 (10_state R37 (d)). -/
@[simp] theorem lazyCap_valid (s : State) : capValid (lazyCap s) = true := by
  unfold lazyCap
  split
  · assumption
  · rcases capcheck_cases s.probe with h | h | h <;> rw [h] <;> rfl

/-- The lazy check keeps `CAP` legal (10_state R37 (c)). -/
theorem lazyCap_legal {s : State} (h : capLegal s.cap = true) : capLegal (lazyCap s) = true := by
  unfold lazyCap
  split
  · exact h
  · rcases capcheck_cases s.probe with h | h | h <;> rw [h] <;> rfl

/-- What a step that answers a next state did: nothing, with no action pending, or the next action (20_memory R65 (c)). -/
theorem stepHost_next {s t : State} (h : stepHost s = .next t) :
    (s.pending = [] ∧ t = s) ∨ ∃ act rest, s.pending = act :: rest ∧ hostAct act { s with pending := rest } = .next t := by
  unfold stepHost at h
  split at h
  · next hp => cases h; exact .inl ⟨hp, rfl⟩
  · next act rest hp => exact .inr ⟨act, rest, hp, h⟩

/-- What a host write to a register that answers a next state did (10_state R31). -/
theorem hostWriteReg_next {n v : Nat} {s t : State} (h : hostWriteReg n v s = .next t) :
    (n = 0 ∧ v < 2 ^ 8 ∧ ∃ i, decode (BitVec.ofNat 8 v) = .ok i ∧ exec i s = .next t) ∨
    (n = 1 ∧ v < 2 ^ s.platform.aw ∧ t = { s with src := OperandReg.holding v }) ∨
    (n = 2 ∧ v < 2 ^ s.platform.aw ∧ t = { s with dst := OperandReg.holding v }) ∨
    (n = 3 ∧ v < 2 ^ s.platform.cw ∧ t = { s with count := OperandReg.holding v }) ∨
    ((n = 4 ∨ n = 5) ∧ t = s) := by
  unfold hostWriteReg at h
  split at h
  · split at h
    · next hv =>
      unfold issue at h
      split at h
      · next i hi => exact .inl ⟨rfl, hv, i, hi, h⟩
      · cases h
    · cases h
  · split at h
    · next hv => cases h; exact .inr (.inl ⟨rfl, hv, rfl⟩)
    · cases h
  · split at h
    · next hv => cases h; exact .inr (.inr (.inl ⟨rfl, hv, rfl⟩))
    · cases h
  · split at h
    · next hv => cases h; exact .inr (.inr (.inr (.inl ⟨rfl, hv, rfl⟩)))
    · cases h
  · cases h; exact .inr (.inr (.inr (.inr ⟨.inl rfl, rfl⟩)))
  · cases h; exact .inr (.inr (.inr (.inr ⟨.inr rfl, rfl⟩)))
  · cases h

/-- A host read of a register that answers a next state changes `hostData` only (10_state R31). -/
theorem hostReadReg_next {n : Nat} {s t : State} (h : hostReadReg n s = .next t) :
    t = { s with hostData := t.hostData } := by
  unfold hostReadReg at h
  split at h <;> cases h <;> rfl

/-- A host write to memory that answers a next state writes one existing byte (20_memory R65). -/
theorem hostWriteMem_next {a : Nat} {b : Byte} {s t : State} (h : hostWriteMem a b s = .next t) :
    a < 2 ^ s.platform.aw ∧ t = { s with mem := Memory.write s.mem a b } := by
  unfold hostWriteMem at h
  split at h
  · cases h
  · next ha =>
    split at h
    · cases h
    · cases h; exact ⟨by simpa using ha, rfl⟩

/-- A host read of memory that answers a next state changes `hostData` only. -/
theorem hostReadMem_next {a : Nat} {s t : State} (h : hostReadMem a s = .next t) :
    t = { s with hostData := some (Memory.read s.mem a).toNat } := by
  unfold hostReadMem at h
  split at h
  · cases h
  · split at h
    · cases h
    · cases h; rfl

/-- Driving `PROBE` changes nothing else (10_state R28). -/
theorem driveProbe_next {p : Probe} {s t : State} (h : driveProbe p s = .next t) : t = { s with probe := p } := by
  unfold driveProbe at h
  split at h
  · cases h
  · cases h; rfl

end Sys2Proof.Machine
end

