-- ==== Sys2Proof/Laws/PerInstr.lean ====
section
/-! SUPPORT. One lemma per command about its syntax and its byte (30_encoding R81, R82). -/

namespace Sys2Proof.Laws

/-- The command is well formed, its byte has `RSV` = 0 (30_encoding R81), and bit 2 of the byte says whether it is a
conversion (30_encoding R82). -/
def EncodeForm.Statement (i : Instr) : Prop :=
  i.wellFormed = true ∧ (encode i).extractLsb' 5 3 = 0#3 ∧ ((encode i).getLsbD 2 = true ↔ i ≠ .capchk)

theorem EncodeForm.capchk : EncodeForm.Statement .capchk :=
  ⟨rfl, by decide, by decide⟩

theorem EncodeForm.cvtS2H (dp sp : Bool) : EncodeForm.Statement (.cvtS2H dp sp) := by
  refine ⟨rfl, ?_, ?_⟩ <;> revert dp sp <;> decide

theorem EncodeForm.cvtD2H (dp sp : Bool) : EncodeForm.Statement (.cvtD2H dp sp) := by
  refine ⟨rfl, ?_, ?_⟩ <;> revert dp sp <;> decide

theorem EncodeForm.cvtH2S (dp sp : Bool) : EncodeForm.Statement (.cvtH2S dp sp) := by
  refine ⟨rfl, ?_, ?_⟩ <;> revert dp sp <;> decide

theorem EncodeForm.cvtH2D (dp sp : Bool) : EncodeForm.Statement (.cvtH2D dp sp) := by
  refine ⟨rfl, ?_, ?_⟩ <;> revert dp sp <;> decide

end Sys2Proof.Laws
end

