-- ==== Sys2Proof/Laws/Step.lean ====
section
/-! SUPPORT. What a command and a host action that answer a next state did, said once, over all of them. -/

namespace Sys2Proof.Machine

/-- Every `CVT` command is the skeleton of 40 R100 over an element step with its frame. -/
theorem exec_cvt (k : Cvt) :
    ∃ f, StepFrame f k ∧ ∀ dp sp s, exec (k.instr dp sp) s = convertCommand f k dp sp s := by
  cases k
  · exact ⟨_, elementS2H_frame, fun _ _ _ => rfl⟩
  · exact ⟨_, elementD2H_frame, fun _ _ _ => rfl⟩
  · exact ⟨_, elementH2S_frame, fun _ _ _ => rfl⟩
  · exact ⟨_, elementH2D_frame, fun _ _ _ => rfl⟩

/-- Every command is `CAPCHK` or a `CVT` command. -/
theorem instr_cases (i : Instr) : i = .capchk ∨ ∃ k : Cvt, ∃ dp sp, i = k.instr dp sp := by
  cases i with
  | capchk => exact .inl rfl
  | cvtS2H dp sp => exact .inr ⟨.s2h, dp, sp, rfl⟩
  | cvtD2H dp sp => exact .inr ⟨.d2h, dp, sp, rfl⟩
  | cvtH2S dp sp => exact .inr ⟨.h2s, dp, sp, rfl⟩
  | cvtH2D dp sp => exact .inr ⟨.h2d, dp, sp, rfl⟩

/-- A command with a meaning changes `CAP`, `STATUS` and memory only; `CAP` is what the lazy check leaves, `STATUS` follows
from it, and memory changes only in a `CVT` command that reaches its element loop. -/
theorem exec_next {i : Instr} {s t : State} (h : exec i s = .next t) :
    t = { s with cap := lazyCap s, status := statusOf (lazyCap s), mem := t.mem } ∧
      (t.mem = s.mem ∨ ∃ k : Cvt, i = k.instr true true ∧ CvtReady k s) := by
  rcases instr_cases i with rfl | ⟨k, dp, sp, rfl⟩
  · cases h; exact ⟨rfl, .inl rfl⟩
  · obtain ⟨f, -, he⟩ := exec_cvt k
    rw [he] at h
    rcases convertCommand_next h with ⟨hi, rfl⟩ | ⟨hi, -, rfl⟩ | ⟨hi, rfl, rfl, hr, rfl⟩
    · exact ⟨by simp [failUnsupported, lazyCheck, statusOf, hi], .inl rfl⟩
    · exact ⟨by simp [finishOk, lazyCheck, statusOf, hi], .inl rfl⟩
    · exact ⟨by simp [finishOk, lazyCheck, statusOf, hi], .inr ⟨k, rfl, hr⟩⟩

/-- A command keeps the canonical form of the memory, and keeps it inside the address space. -/
theorem exec_memory {i : Instr} {s t : State} (h : exec i s = .next t) :
    (Memory.wf s.mem = true → Memory.wf t.mem = true) ∧
      (Memory.within s.mem (2 ^ s.platform.aw) = true → Memory.within t.mem (2 ^ s.platform.aw) = true) := by
  rcases instr_cases i with rfl | ⟨k, dp, sp, rfl⟩
  · cases h; exact ⟨id, id⟩
  · obtain ⟨f, hf, he⟩ := exec_cvt k
    rw [he] at h
    rcases convertCommand_next h with ⟨-, rfl⟩ | ⟨-, -, rfl⟩ | ⟨-, rfl, rfl, hr, rfl⟩
    · exact ⟨id, id⟩
    · exact ⟨id, id⟩
    · exact ⟨convertFrom_wf hf _ _ _ _ _ _ _, convertFrom_within hf _ _ _ _ _ _ hr.dst_range⟩

/-- A host action with a meaning issues a command, resets the block, writes one byte of memory, or leaves the block's `CAP`,
`STATUS`, memory, parameters and free contents alone and every operand register within its width. -/
theorem hostAct_next {act : HostAction} {s t : State} (h : hostAct act s = .next t) :
    (∃ v i, act = .writeReg 0 v ∧ exec i s = .next t) ∨
    (∃ p, act = .reset p ∧ t = resetBlock p s) ∨
    (∃ a b, act = .memWrite a b ∧ a < 2 ^ s.platform.aw ∧ t = { s with mem := Memory.write s.mem a b }) ∨
    (t.platform = s.platform ∧ t.cap = s.cap ∧ t.status = s.status ∧ t.mem = s.mem ∧ t.pending = s.pending ∧
      t.freeEpoch = s.freeEpoch ∧
      (t.src = s.src ∨ t.src.value < 2 ^ s.platform.aw) ∧ (t.dst = s.dst ∨ t.dst.value < 2 ^ s.platform.aw) ∧
      (t.count = s.count ∨ t.count.value < 2 ^ s.platform.cw)) := by
  cases act with
  | writeReg n v =>
    rcases hostWriteReg_next h with ⟨rfl, -, i, -, hx⟩ | ⟨rfl, hv, rfl⟩ | ⟨rfl, hv, rfl⟩ | ⟨rfl, hv, rfl⟩ | ⟨-, rfl⟩
    · exact .inl ⟨v, i, rfl, hx⟩
    · exact .inr (.inr (.inr ⟨rfl, rfl, rfl, rfl, rfl, rfl, .inr hv, .inl rfl, .inl rfl⟩))
    · exact .inr (.inr (.inr ⟨rfl, rfl, rfl, rfl, rfl, rfl, .inl rfl, .inr hv, .inl rfl⟩))
    · exact .inr (.inr (.inr ⟨rfl, rfl, rfl, rfl, rfl, rfl, .inl rfl, .inl rfl, .inr hv⟩))
    · exact .inr (.inr (.inr ⟨rfl, rfl, rfl, rfl, rfl, rfl, .inl rfl, .inl rfl, .inl rfl⟩))
  | readReg n =>
    rw [hostReadReg_next h]
    exact .inr (.inr (.inr ⟨rfl, rfl, rfl, rfl, rfl, rfl, .inl rfl, .inl rfl, .inl rfl⟩))
  | memWrite a b => exact .inr (.inr (.inl ⟨a, b, rfl, hostWriteMem_next h⟩))
  | memRead a =>
    rw [hostReadMem_next h]
    exact .inr (.inr (.inr ⟨rfl, rfl, rfl, rfl, rfl, rfl, .inl rfl, .inl rfl, .inl rfl⟩))
  | driveProbe p =>
    rw [driveProbe_next h]
    exact .inr (.inr (.inr ⟨rfl, rfl, rfl, rfl, rfl, rfl, .inl rfl, .inl rfl, .inl rfl⟩))
  | reset p => cases h; exact .inr (.inl ⟨p, rfl, rfl⟩)

end Sys2Proof.Machine
end

