-- ==== Sys2Proof/Tests/Slice0.lean ====
section
/-! SUPPORT. Tests whose expected results come from the spec's own tables (named beside each), the smoke test of
WellFormed, and for every statement with hypotheses a witness that meets them. -/

namespace Sys2Proof.Machine.Tests

/-! ## Helpers -/

/-- The state of 95_test_vectors 2.5 and 2.6 with the operand registers written and `bytes` at `base`. -/
def demo (o : ByteOrder) (p : Probe) (src dst n base : Nat) (bytes : List Byte) : State :=
  { State.reset with
    platform := { resetPlatform with byteOrder := o }
    probe := p
    src := ⟨src, true⟩
    dst := ⟨dst, true⟩
    count := ⟨n, true⟩
    mem := bytes.zipIdx.foldl (fun m c => Memory.write m (base + c.2) c.1) [] }

/-- The next state of an outcome. -/
def stateOf : Host.Outcome State Fault Refusal → Option State
  | .next s => some s
  | .fault _ => none
  | .refused _ => none

/-- The refusal of an outcome. -/
def refusalOf : Host.Outcome State Fault Refusal → Option Refusal
  | .next _ => none
  | .fault _ => none
  | .refused r => some r

/-- The bytes at `a .. a + n - 1` of the next state. -/
def bytesAfter (o : Host.Outcome State Fault Refusal) (a n : Nat) : Option (List Byte) :=
  (stateOf o).map (fun s => (List.range n).map (fun k => Memory.read s.mem (a + k)))

/-- `CAP` and `STATUS` of the next state. -/
def capStatusAfter (o : Host.Outcome State Fault Refusal) : Option (BitVec 3 × BitVec 1) :=
  (stateOf o).map (fun s => (s.cap, s.status))

/-- A host that stores doubles low word first (95_test_vectors 2.5). -/
def lowFirst : Probe := ⟨0x00000000#32, 0x3FF00000#32⟩
/-- A host that stores doubles high word first (95_test_vectors 2.1). -/
def highFirst : Probe := ⟨0x3FF00000#32, 0x00000000#32⟩
/-- An unsupported host (95_test_vectors 2.1). -/
def badProbe : Probe := ⟨0x3FF00000#32, 0x00000001#32⟩

/-- `n` singles at 0x1000, converted to 0x2000: 1.0 and 65520 (41 R130). -/
def demoS2H : State := demo .little lowFirst 0x1000 0x2000 2 0x1000
  [0x00#8, 0x00#8, 0x80#8, 0x3F#8, 0x00#8, 0xF0#8, 0x7F#8, 0x47#8]
/-- Two doubles at 0x1000, converted to 0x2000: 1.0 and the nearest double to 1/3 (42 R150). -/
def demoD2H : State := demo .little lowFirst 0x1000 0x2000 2 0x1000
  [0x00#8, 0x00#8, 0x00#8, 0x00#8, 0x00#8, 0x00#8, 0xF0#8, 0x3F#8,
   0x55#8, 0x55#8, 0x55#8, 0x55#8, 0x55#8, 0x55#8, 0xD5#8, 0x3F#8]
/-- Four halves at 0x2000, converted to 0x3000 (43 R170). -/
def demoH2S : State := demo .little lowFirst 0x2000 0x3000 4 0x2000
  [0x00#8, 0x3C#8, 0x01#8, 0x00#8, 0xFF#8, 0x7B#8, 0x00#8, 0x7E#8]
/-- Two halves at 0x2000, converted to 0x3000, low word first, little (44 R190). -/
def demoH2D : State := demo .little lowFirst 0x2000 0x3000 2 0x2000 [0x00#8, 0x3C#8, 0x01#8, 0x00#8]
/-- The same, high word first, big (44 R190). -/
def demoH2DBig : State := demo .big highFirst 0x2000 0x3000 2 0x2000 [0x3C#8, 0x00#8, 0x00#8, 0x01#8]

/-- `s` with one action pending. -/
def State.doing (s : State) (act : HostAction) : State := { s with pending := [act] }

/-! ## WellFormed: an ill-formed term for each check -/

theorem test_wf_addressWidth_zero : ({ resetPlatform with aw := 0 } : Platform).wellFormed = false := by decide
theorem test_wf_countWidth_zero : ({ resetPlatform with cw := 0 } : Platform).wellFormed = false := by decide
theorem test_wf_nanHi_finite : ({ resetPlatform with h2dNanHi := 0x3FF00000#32 } : Platform).wellFormed = false := by decide
theorem test_wf_nanHi_infinite : ({ resetPlatform with h2dNanHi := 0x7FF00000#32 } : Platform).wellFormed = false := by decide
theorem test_wf_command_too_wide : (HostAction.writeReg 0 256).wellFormed resetPlatform = false := by decide
theorem test_wf_src_too_wide : (HostAction.writeReg 1 (2 ^ 32)).wellFormed resetPlatform = false := by decide
theorem test_wf_dst_too_wide : (HostAction.writeReg 2 (2 ^ 32)).wellFormed resetPlatform = false := by decide
theorem test_wf_count_too_wide : (HostAction.writeReg 3 (2 ^ 32)).wellFormed resetPlatform = false := by decide
theorem test_wf_write_reserved : (HostAction.writeReg 6 0).wellFormed resetPlatform = false := by decide
theorem test_wf_read_command_port : (HostAction.readReg 0).wellFormed resetPlatform = false := by decide
theorem test_wf_read_reserved : (HostAction.readReg 6).wellFormed resetPlatform = false := by decide
theorem test_wf_memWrite_outside : (HostAction.memWrite (2 ^ 32) 0#8).wellFormed resetPlatform = false := by decide
theorem test_wf_memRead_outside : (HostAction.memRead (2 ^ 32)).wellFormed resetPlatform = false := by decide
theorem test_wf_reset_platform : resetPlatform.wellFormed = true := by decide

/-! ## Decoding: every constructor, words written out from 30_encoding R81, R82 -/

theorem test_decode_capchk : decode 0b00000000#8 = .ok .capchk := by decide
theorem test_decode_cvtS2H : decode 0b00011100#8 = .ok (.cvtS2H true true) := by decide
theorem test_decode_cvtS2H_src_only : decode 0b00001100#8 = .ok (.cvtS2H false true) := by decide
theorem test_decode_cvtD2H : decode 0b00011101#8 = .ok (.cvtD2H true true) := by decide
theorem test_decode_cvtD2H_dst_only : decode 0b00010101#8 = .ok (.cvtD2H true false) := by decide
theorem test_decode_cvtH2S : decode 0b00011110#8 = .ok (.cvtH2S true true) := by decide
theorem test_decode_cvtH2S_absent : decode 0b00000110#8 = .ok (.cvtH2S false false) := by decide
theorem test_decode_cvtH2D : decode 0b00011111#8 = .ok (.cvtH2D true true) := by decide
theorem test_decode_cvtH2D_dst_only : decode 0b00010111#8 = .ok (.cvtH2D true false) := by decide
theorem test_decode_reserved_opcode : decode 0b00000011#8 = .error .reservedOpcode := by decide
theorem test_decode_capchk_presence : decode 0b00010000#8 = .error .capchkWithPresence := by decide
theorem test_decode_reserved_bits : decode 0b00111100#8 = .error .reservedBitsSet := by decide
theorem test_decodeTableWord : decodeTableWord 8 0x0D = some (.cvtD2H false true) := by decide

/-- 30_encoding R91: `cvt.s2h -, 0x1000, 4` is `0x0C` after `SRC` and `COUNT`. -/
theorem test_assemble_absent_destination : assemble (.cvt .s2h none (some 0x1000) 4) =
    [.writeReg 1 0x1000, .writeReg 3 4, .writeReg 0 0x0C] := by decide
/-- 30_encoding R91: `cvt.d2h 0x2000, 0x1000, 2` is `0x1D`. -/
theorem test_assemble_both : assemble (.cvt .d2h (some 0x2000) (some 0x1000) 2) =
    [.writeReg 1 0x1000, .writeReg 2 0x2000, .writeReg 3 2, .writeReg 0 0x1D] := by decide

/-! ## The element functions: 95_test_vectors 2.2, 2.3, 2.4 -/

/-- 41 R131: carry through the mantissa, overflow by carry, ties, underflow guard, a NaN. -/
theorem test_s2h : [s2h 0x3FFFF000#32, s2h 0xC77FF000#32, s2h 0x34200000#32, s2h 0xB2800000#32, s2h 0x33000000#32,
    s2h 0x387FE000#32, s2h 0x7F800001#32] =
    [0x4000#16, 0xFC00#16, 0x0003#16, 0x8000#16, 0x0001#16, 0x0400#16, 0xFE00#16] := by decide
/-- 42 R151: the computed branch at `hes = -11`, ties, a NaN by the high word, an infinity by the high word. -/
theorem test_d2h : [d2h 0xBE500000#32, d2h 0x3E780000#32, d2h 0x3F0FFC00#32, d2h 0x3FF001FF#32, d2h 0x3FF00200#32,
    d2h 0x7FF00001#32, d2h 0xFFF00000#32] =
    [0x8000#16, 0x0002#16, 0x0400#16, 0x3C00#16, 0x3C01#16, 0xFE00#16, 0xFC00#16] := by decide
/-- 43 R171: the smallest and the largest denormal, a normal, the largest half, infinity, a NaN. -/
theorem test_h2s : [h2s 0x0001#16, h2s 0x83FF#16, h2s 0xD7B7#16, h2s 0x7BFF#16, h2s 0xFC00#16, h2s 0x7C01#16] =
    [0x33800000#32, 0xB87FC000#32, 0xC2F6E000#32, 0x477FE000#32, 0xFF800000#32, 0xFFC00000#32] := by decide
/-- 44 R191, with the default `H2D_NAN_HI`. -/
theorem test_h2d : [h2d 0xFFF80000#32 0x0155#16, h2d 0xFFF80000#32 0x8000#16, h2d 0xFFF80000#32 0x4248#16,
    h2d 0xFFF80000#32 0x7DFF#16] =
    [(0x3EF55000#32, 0#32), (0x80000000#32, 0#32), (0x40092000#32, 0#32), (0xFFF80000#32, 0#32)] := by decide

/-! ## One step of each command -/

/-- 40 R107: the three worked examples. -/
theorem test_capchk_supported : capStatusAfter (exec .capchk (demo .little lowFirst 0 0 0 0 [])) = some (0b011#3, 0#1) ∧
    capStatusAfter (exec .capchk (demo .little highFirst 0 0 0 0 [])) = some (0b111#3, 0#1) := by decide
theorem test_capchk_unsupported : capStatusAfter (exec .capchk (demo .little badProbe 0 0 0 0 [])) =
    some (0b001#3, 1#1) := by decide

/-- 41 R130, worked example. -/
theorem test_cvtS2H : bytesAfter (exec (.cvtS2H true true) demoS2H) 0x2000 4 =
    some [0x00#8, 0x3C#8, 0x00#8, 0x7C#8] := by decide
/-- 95_test_vectors 2.5: an unsupported host fails before the absent buffer is looked at. -/
theorem test_cvtS2H_unsupported_absent : capStatusAfter (exec (.cvtS2H false true) { demoS2H with probe := badProbe }) =
    some (0b001#3, 1#1) := by decide
/-- 42 R150, worked example. -/
theorem test_cvtD2H : bytesAfter (exec (.cvtD2H true true) demoD2H) 0x2000 4 =
    some [0x00#8, 0x3C#8, 0x55#8, 0x35#8] := by decide
/-- 95_test_vectors, program 5: the word-order hazard reads the low word. -/
theorem test_cvtD2H_word_order : bytesAfter (exec (.cvtD2H true true) { demoD2H with probe := highFirst, count := ⟨1, true⟩ })
    0x2000 2 = some [0x00#8, 0x00#8] := by decide
/-- 43 R170, worked example. -/
theorem test_cvtH2S : bytesAfter (exec (.cvtH2S true true) demoH2S) 0x3000 16 =
    some [0x00#8, 0x00#8, 0x80#8, 0x3F#8, 0x00#8, 0x00#8, 0x80#8, 0x33#8,
      0x00#8, 0xE0#8, 0x7F#8, 0x47#8, 0x00#8, 0x00#8, 0xC0#8, 0xFF#8] := by decide
/-- 95_test_vectors 2.5: with no operand register ever written, a command with both buffers absent is a no-operation. -/
theorem test_cvtH2S_absent_from_reset : stateOf (exec (.cvtH2S false false) State.reset) =
    some { State.reset with cap := 0b011#3 } := by decide
/-- 44 R190, worked example, low word first, little. -/
theorem test_cvtH2D : bytesAfter (exec (.cvtH2D true true) demoH2D) 0x3000 16 =
    some [0x00#8, 0x00#8, 0x00#8, 0x00#8, 0x00#8, 0x00#8, 0xF0#8, 0x3F#8,
      0x00#8, 0x00#8, 0x00#8, 0x00#8, 0x00#8, 0x00#8, 0x70#8, 0x3E#8] := by decide
/-- 44 R190, worked example, high word first, big. -/
theorem test_cvtH2D_big : bytesAfter (exec (.cvtH2D true true) demoH2DBig) 0x3000 16 =
    some [0x3F#8, 0xF0#8, 0x00#8, 0x00#8, 0x00#8, 0x00#8, 0x00#8, 0x00#8,
      0x3E#8, 0x70#8, 0x00#8, 0x00#8, 0x00#8, 0x00#8, 0x00#8, 0x00#8] := by decide

/-! ## Refusals: 95_test_vectors 2.5 -/

theorem test_refuse_source_misaligned : refusalOf (exec (.cvtS2H true true) { demoS2H with src := ⟨0x1001, true⟩ }) =
    some (.preconditionFalse .alignment) := by decide
theorem test_refuse_in_place : refusalOf (exec (.cvtS2H true true) { demoS2H with dst := ⟨0x1000, true⟩ }) =
    some (.preconditionFalse .disjoint) := by decide
theorem test_adjacent_converts : bytesAfter (exec (.cvtS2H true true)
    { demoS2H with dst := ⟨0x1004, true⟩, count := ⟨1, true⟩ }) 0x1000 6 =
    some [0x00#8, 0x00#8, 0x80#8, 0x3F#8, 0x00#8, 0x3C#8] := by decide
theorem test_refuse_past_the_top : refusalOf (exec (.cvtS2H true true) { demoS2H with src := ⟨0xFFFFFFFC, true⟩ }) =
    some (.preconditionFalse .range) := by decide
theorem test_refuse_count_never_written : refusalOf (exec (.cvtS2H true true)
    { demoS2H with count := OperandReg.neverWritten }) = some (.operandNeverWritten .count) := by decide
theorem test_refuse_reserved_byte : refusalOf (step (State.reset.withFetchWord 8 0x18)) =
    some (.reservedCommand 0x18#8) := by decide
theorem test_step_first_command : stateOf (step (State.reset.withFetchWord 8 0x00)) =
    some { State.reset with cap := 0b011#3 } := by decide

/-- Two host reads of a never-written register between resets return one value (10_state R35, 60 R245). -/
theorem test_never_written_is_held :
    Host.Core.run Sys2Proof.core 2 { State.reset with pending := [.readReg 1, .readReg 1] } =
      step (State.doing State.reset (.readReg 1)) := rfl

/-! ## Witnesses: for every statement with hypotheses, data that meets them -/

theorem ready_demoS2H : CvtReady .s2h demoS2H := (cvtReady_iff _ _).mpr (by decide)
theorem ready_demoD2H : CvtReady .d2h demoD2H := (cvtReady_iff _ _).mpr (by decide)
theorem ready_demoH2S : CvtReady .h2s demoH2S := (cvtReady_iff _ _).mpr (by decide)
theorem ready_demoH2D : CvtReady .h2d demoH2D := (cvtReady_iff _ _).mpr (by decide)

theorem witness_DecodedByteIsEncodedByte : decode 0x1C#8 = .ok (.cvtS2H true true) := by decide

theorem witness_ReservedByteHasNoMeaning :
    (∀ v ∈ [0x20, 0xFF], v < 2 ^ 8 ∧ (BitVec.ofNat 8 v).extractLsb' 5 3 ≠ 0#3 ∧
      (State.doing State.reset (.writeReg 0 v)).pending = .writeReg 0 v :: []) ∧
    (∀ v ∈ [1, 2, 3, 0x19, 0x1B], v < 2 ^ 8 ∧ (BitVec.ofNat 8 v).extractLsb' 5 3 = 0#3 ∧
      ((BitVec.ofNat 8 v).extractLsb' 0 3 = 1#3 ∨ (BitVec.ofNat 8 v).extractLsb' 0 3 = 2#3 ∨
        (BitVec.ofNat 8 v).extractLsb' 0 3 = 3#3)) ∧
    0x18 < 2 ^ 8 := by decide

theorem witness_StepRunsTheDecodedCommand :
    (State.doing demoS2H (.writeReg 0 0x1C)).pending = .writeReg 0 0x1C :: [] ∧ 0x1C < 2 ^ 8 ∧
    decode (BitVec.ofNat 8 0x1C) = .ok (.cvtS2H true true) ∧ decodeTableWord 8 0x1C = some (.cvtS2H true true) := by decide

/-- `capchk`, and a `CVT` line with both buffers, without its source, without its destination, without either. -/
theorem witness_AssemblerLineRunsItsCommand :
    (State.doing State.reset (.writeReg 0 0x00)).pending = assemble .capchk ++ [] ∧
    (∀ b ∈ [(some (2 ^ 32 - 1), some 0), (some 0, none), (none, some (2 ^ 32 - 1)), (none, none)],
      let s : State := { State.reset with pending := assemble (.cvt .h2d b.1 b.2 (2 ^ 32 - 1)) ++ [.readReg 4] }
      (∀ a ∈ b.2, a < 2 ^ s.platform.aw) ∧ (∀ a ∈ b.1, a < 2 ^ s.platform.aw) ∧ 2 ^ 32 - 1 < 2 ^ s.platform.cw ∧
        s.pending = assemble (.cvt .h2d b.1 b.2 (2 ^ 32 - 1)) ++ [.readReg 4]) := by decide

theorem witness_HostWriteOfRegisters :
    (∀ c ∈ [(1, 2 ^ 32 - 1), (2, 0), (3, 2 ^ 32 - 1), (4, 1), (5, 7), (6, 0), (0, 2 ^ 8), (1, 2 ^ 32), (2, 2 ^ 32), (3, 2 ^ 32)],
      (State.doing State.reset (.writeReg c.1 c.2)).pending = .writeReg c.1 c.2 :: []) ∧
    2 ^ 32 - 1 < 2 ^ State.reset.platform.aw ∧ 2 ^ 32 - 1 < 2 ^ State.reset.platform.cw ∧
    2 ^ State.reset.platform.aw ≤ 2 ^ 32 ∧ 2 ^ State.reset.platform.cw ≤ 2 ^ 32 := by decide

theorem witness_HostReadOfRegisters :
    (∀ n ∈ [0, 1, 2, 3, 4, 5, 6], (State.doing demoS2H (.readReg n)).pending = .readReg n :: []) ∧
    demoS2H.src.written = true ∧ demoS2H.dst.written = true ∧ demoS2H.count.written = true := by decide

theorem witness_NeverWrittenRegisterReadsFree :
    (∀ n ∈ [1, 2, 3], (State.doing State.reset (.readReg n)).pending = .readReg n :: [] ∧
      (State.doing State.reset (.readReg n)).platform = State.reset.platform ∧
      (State.doing State.reset (.readReg n)).freeEpoch = State.reset.freeEpoch) ∧
    State.reset.src.written = false ∧ State.reset.dst.written = false ∧ State.reset.count.written = false ∧
    (∃ t, step (State.doing State.reset (.reset highFirst)) = .next t ∧ t.freeEpoch ≠ State.reset.freeEpoch) :=
  ⟨by decide, rfl, rfl, rfl, _, rfl, by decide⟩

theorem witness_HostMemoryByteReadsBack :
    (let s : State := { State.reset with pending := [.memWrite (2 ^ 32 - 1) 0xAA#8, .memRead (2 ^ 32 - 1)] }
     s.pending = .memWrite (2 ^ 32 - 1) 0xAA#8 :: .memRead (2 ^ 32 - 1) :: [] ∧ 2 ^ 32 - 1 < 2 ^ s.platform.aw ∧
       s.platform.isPlain (2 ^ 32 - 1) = true) ∧
    (let s : State := { State.reset with pending := [.memWrite (2 ^ 32) 0xAA#8, .memRead (2 ^ 32)] }
     s.pending = .memWrite (2 ^ 32) 0xAA#8 :: .memRead (2 ^ 32) :: [] ∧ 2 ^ s.platform.aw ≤ 2 ^ 32) := by decide

theorem witness_ProbeIsStableUntilTheCheck :
    (State.doing State.reset (.driveProbe highFirst)).pending = .driveProbe highFirst :: [] ∧
    State.reset.cap.getLsbD 0 = false ∧ highFirst ≠ State.reset.probe ∧
    ({ State.reset with cap := 0b011#3 } : State).cap.getLsbD 0 = true := by decide

theorem witness_ResetPutsTheBlockInItsResetState :
    (State.doing { demoS2H with cap := 0b011#3 } (.reset highFirst)).pending = .reset highFirst :: [] := by decide

theorem witness_OnlyResetClearsValid :
    ∃ s t : State, step s = .next t ∧ s.cap.getLsbD 0 = true ∧ t.cap.getLsbD 0 = false :=
  ⟨State.doing { demoS2H with cap := 0b011#3 } (.reset highFirst), _, rfl, by decide, by decide⟩

theorem witness_CapcheckTable :
    ∃ w0 w1 : Word, ¬ (w0 = 0x3FF00000#32 ∧ w1 = 0x00000000#32) ∧ ¬ (w0 = 0x00000000#32 ∧ w1 = 0x3FF00000#32) :=
  ⟨0x3FF00000#32, 0x00000001#32, by decide, by decide⟩

theorem witness_LazyCheckIsMadeOnce :
    (∃ t, exec (.cvtS2H false false) State.reset = .next t ∧ State.reset.cap.getLsbD 0 = false) ∧
    (∃ s t : State, exec (.cvtS2H false false) s = .next t ∧ s.cap.getLsbD 0 = true) :=
  ⟨⟨_, rfl, by decide⟩, ⟨{ State.reset with cap := 0b111#3 }, _, rfl, by decide⟩⟩

theorem witness_UnsupportedHostFailsEveryCommand :
    capIeee (lazyCap { State.reset with probe := badProbe }) = false ∧
    capIeee (lazyCap { State.reset with cap := 0b001#3 }) = false := by decide

theorem witness_UnsupportedIsStickyUntilReset :
    let s : State := { demoS2H with cap := 0b001#3, pending := [.writeReg 0 0x1C, .writeReg 3 5] }
    s.cap = 0b001#3 ∧ (∀ p, HostAction.reset p ∉ s.pending) ∧ ∃ t, RunsTo 2 s t :=
  ⟨rfl, by simp, _, rfl⟩

theorem witness_NoOperationSucceeds :
    capIeee (lazyCap State.reset) = true ∧ capIeee (lazyCap { demoS2H with count := ⟨0, true⟩ }) = true ∧
    ({ demoS2H with count := ⟨0, true⟩ } : State).count.written = true := by decide

theorem witness_NeverWrittenOperandHasNoMeaning :
    (capIeee (lazyCap State.reset) = true ∧ State.reset.count.written = false) ∧
    (let s : State := { demoS2H with dst := OperandReg.neverWritten }
     capIeee (lazyCap s) = true ∧ s.count.written = true ∧ 0 < s.count.value ∧ s.dst.written = false) ∧
    capIeee (lazyCap { State.reset with probe := badProbe }) = false := by decide

/-- One state for each precondition that is false: P1, P2, P3, P4, P6. -/
def brokenStates : List State :=
  [{ demoS2H with src := ⟨0xFFFFFFFC, true⟩ },
   { demoS2H with platform := { demoS2H.platform with accessible := [⟨0, 0x2003⟩] } },
   { demoS2H with dst := ⟨0x2001, true⟩ },
   { demoS2H with dst := ⟨0x1006, true⟩ },
   { demoS2H with platform := { demoS2H.platform with notPlain := [⟨0x1007, 1⟩] } }]

theorem witness_BrokenPreconditionHasNoMeaning :
    brokenStates.map (fun s => brokenPrecondition s.platform .s2h s.src.value s.dst.value s.count.value) =
      [some .range, some .size, some .alignment, some .disjoint, some .plain] ∧
    ∀ s ∈ brokenStates, capIeee (lazyCap s) = true ∧ s.count.written = true ∧ s.src.written = true ∧
      s.dst.written = true ∧ 0 < s.count.value ∧ ¬ CvtReady .s2h s := by
  refine ⟨by decide, ?_⟩
  simp only [cvtReady_iff]
  decide

theorem witness_CvtS2HConvertsEveryElement : CvtReady .s2h demoS2H := ready_demoS2H
theorem witness_CvtD2HConvertsEveryElement : CvtReady .d2h demoD2H := ready_demoD2H
theorem witness_CvtH2SConvertsEveryElement : CvtReady .h2s demoH2S := ready_demoH2S
theorem witness_CvtH2DConvertsEveryElement : CvtReady .h2d demoH2D := ready_demoH2D

theorem witness_ConversionStoresOnlyItsElements :
    (∃ t, exec (Cvt.s2h.instr true true) demoS2H = .next t) ∧ (∃ t, exec (Cvt.h2d.instr false true) demoH2D = .next t) :=
  ⟨⟨_, convertCommand_ready _ ready_demoS2H⟩, ⟨_, rfl⟩⟩

theorem witness_NoCommandChangesItsOperands :
    (∃ t, exec (.cvtD2H true true) demoD2H = .next t) ∧ (∃ t, exec .capchk demoD2H = .next t) :=
  ⟨⟨_, convertCommand_ready _ ready_demoD2H⟩, ⟨_, rfl⟩⟩

theorem witness_NoCommandTraps :
    (∃ t, exec .capchk { demoD2H with probe := badProbe } = .next t ∧ t.status = 1#1) ∧
    (∃ t, exec .capchk { demoD2H with cap := 0b001#3 } = .next t ∧ t.status = 1#1) ∧
    ({ demoD2H with cap := 0b001#3 } : State).cap.getLsbD 0 = true :=
  ⟨⟨_, rfl, by decide⟩, ⟨_, rfl, by decide⟩, by decide⟩

/-- The memory of `demoD2H` with another low word in the first double. -/
def otherLowWord : Memory := Memory.write demoD2H.mem 0x1000 0xFF#8

theorem witness_LowWordsNeverReachTheHalves :
    CvtReady .d2h demoD2H ∧ (∃ t, exec (.cvtD2H true true) demoD2H = .next t) ∧ otherLowWord ≠ demoD2H.mem ∧
    ∀ i, i < demoD2H.count.value →
      memRead4 .little otherLowWord (hiAddr (capHhf (lazyCap demoD2H)) (elementAddr demoD2H.src.value 8 i)) =
        memRead4 .little demoD2H.mem (hiAddr (capHhf (lazyCap demoD2H)) (elementAddr demoD2H.src.value 8 i)) :=
  ⟨ready_demoD2H, ⟨_, convertCommand_ready _ ready_demoD2H⟩, by decide, by decide⟩

theorem witness_BatchIsRepeatedConversion :
    0 < 1 ∧ demoS2H.count.value = 1 + 1 ∧ CvtReady .s2h demoS2H ∧
    ∃ t, exec (Cvt.s2h.instr true true) demoS2H = .next t :=
  ⟨by decide, by decide, ready_demoS2H, _, convertCommand_ready _ ready_demoS2H⟩

theorem witness_ConversionTwiceIsOnce : ∃ t, exec (Cvt.h2s.instr true true) demoH2S = .next t :=
  ⟨_, convertCommand_ready _ ready_demoH2S⟩

theorem witness_BufferRoundTripThroughSingles :
    CvtReady .h2s demoH2S ∧ CvtReady .s2h { demoH2S with src := demoH2S.dst, dst := ⟨0x4000, true⟩ } :=
  ⟨ready_demoH2S, (cvtReady_iff _ _).mpr (by decide)⟩

theorem witness_BufferRoundTripThroughDoubles :
    demoH2D.platform.wellFormed = true ∧ CvtReady .h2d demoH2D ∧
    CvtReady .d2h { demoH2D with src := demoH2D.dst, dst := ⟨0x4000, true⟩ } :=
  ⟨by decide, ready_demoH2D, (cvtReady_iff _ _).mpr (by decide)⟩

theorem witness_WordWriteOrderIsNotObservable : Memory.wf demoH2D.mem = true := by decide

theorem reset_inv : State.reset.Inv := ⟨by decide, by decide, by decide, by decide, by decide, by decide, by decide, by decide⟩

theorem witness_RegisterRulesOfEveryStep :
    (∃ s t : State, step s = .next t ∧ (∀ p rest, s.pending ≠ .reset p :: rest) ∧ s.cap.getLsbD 0 = true) ∧
    (∃ t, step (State.reset.withFetchWord 8 0) = .next t) ∧ (∃ t, exec .capchk State.reset = .next t) :=
  ⟨⟨{ State.reset with cap := 0b011#3 }, _, rfl, by simp [State.reset], by decide⟩, ⟨_, rfl⟩, ⟨_, rfl⟩⟩

theorem witness_EveryStepKeepsTheInvariant : State.reset.Inv ∧ ∃ t, step State.reset = .next t :=
  ⟨reset_inv, _, rfl⟩

theorem witness_ParametersAreConstant : ∃ t, step (State.reset.withFetchWord 8 0x1F) = .next t ∨
    step (State.reset.withFetchWord 8 0x07) = .next t :=
  ⟨_, .inr rfl⟩

theorem witness_MemoryChangesOnlyByWritesAndCommands : ∃ t, step (State.doing State.reset (.memWrite 5 0xAA#8)) = .next t :=
  ⟨_, rfl⟩

/-- One single at each boundary of the exponent ranges of 41 R129. -/
theorem witness_S2HByExponentField :
    [0x00000000#32, 0x00800000#32, 0x32800000#32, 0x33000000#32, 0x33800000#32, 0x38000000#32, 0x38800000#32,
      0x47000000#32, 0x47800000#32, 0x7F000000#32, 0x7F800000#32].map singleExp =
      [0, 1, 101, 102, 103, 112, 113, 142, 143, 254, 255] ∧
    singleMant 0x7F800000#32 = 0 ∧ singleExp 0x7F800001#32 = 255 ∧ singleMant 0x7F800001#32 ≠ 0 := by decide

/-- One high word at each boundary of the exponent ranges of 42 R149. -/
theorem witness_D2HByExponentField :
    [0x00000000#32, 0x3E500000#32, 0x3E600000#32, 0x3E700000#32, 0x3F000000#32, 0x3F100000#32, 0x40E00000#32,
      0x40F00000#32, 0x7FE00000#32, 0x7FF00000#32].map doubleExp =
      [0, 997, 998, 999, 1008, 1009, 1038, 1039, 2046, 2047] ∧
    doubleMantHi 0x7FF00000#32 = 0 ∧ doubleExp 0x7FF00001#32 = 2047 ∧ doubleMantHi 0x7FF00001#32 ≠ 0 := by decide

/-- The quantum just below 2^16 is 2^5 (45 R207). -/
theorem quantum_top {v : ℚ} (h1 : (2 : ℚ) ^ (15 : ℤ) ≤ v) (h2 : v < (2 : ℚ) ^ ((15 : ℤ) + 1)) : quantum v = 32 := by
  have hv : 0 < v := lt_of_lt_of_le (by positivity) h1
  have hl : Int.log 2 v = 15 :=
    le_antisymm (Int.lt_add_one_iff.mp ((Int.lt_zpow_iff_log_lt (by norm_num) hv).mp (by exact_mod_cast h2)))
      ((Int.zpow_le_iff_le_log (by norm_num) hv).mp (by exact_mod_cast h1))
  have hm : ¬ v < (2 : ℚ) ^ (-14 : ℤ) := not_lt.mpr (le_trans (by norm_num) h1)
  simp only [quantum, if_neg hm, hl]
  norm_num

/-- 65520 and above overflow, the values below it do not (45 R207, R209). -/
theorem roundedMagnitude_at_65520 :
    roundedMagnitude 65520 ≥ 2 ^ 16 ∧ ∀ v : ℚ, 2 ^ 15 ≤ v → v < 65520 → roundedMagnitude v < 2 ^ 16 := by
  constructor
  · simp only [roundedMagnitude, quantum_top (v := 65520) (by norm_num) (by norm_num)]
    norm_num
  · intro v h1 h2
    have hq := quantum_top (v := v) (by exact_mod_cast h1) (lt_trans h2 (by norm_num))
    have hf : ⌊v / 32 + 1 / 2⌋ ≤ 2047 := Int.le_of_lt_add_one (Int.floor_lt.mpr (by push_cast; linarith))
    have hf' : (⌊v / 32 + 1 / 2⌋ : ℚ) ≤ 2047 := by exact_mod_cast hf
    simp only [roundedMagnitude, hq]
    linarith

/-- The overflow clause at its boundary, the single 65520, and the other clause at the single just below it. -/
theorem witness_S2HRoundsToNearestTiesAway :
    (singleExp 0x477FF000#32 ≠ 255 ∧ roundedMagnitude (singleMagnitude 0x477FF000#32) ≥ 2 ^ 16) ∧
    (singleExp 0x477FEFFF#32 ≠ 255 ∧ roundedMagnitude (singleMagnitude 0x477FEFFF#32) < 2 ^ 16) := by
  have h1 : singleExp 0x477FF000#32 = 142 := by decide
  have h2 : singleMant 0x477FF000#32 = 0x7FF000 := by decide
  have h3 : singleExp 0x477FEFFF#32 = 142 := by decide
  have h4 : singleMant 0x477FEFFF#32 = 0x7FEFFF := by decide
  have v1 : singleMagnitude 0x477FF000#32 = 65520 := by simp only [singleMagnitude, magnitude, h1, h2]; norm_num
  refine ⟨⟨by decide, v1 ▸ roundedMagnitude_at_65520.1⟩, by decide, roundedMagnitude_at_65520.2 _ ?_ ?_⟩ <;>
    (simp only [singleMagnitude, magnitude, h3, h4]; norm_num)

/-- The overflow clause at its boundary, the double 65520, and the other clause at the double just below it. -/
theorem witness_D2HRoundsToNearestTiesAway :
    (doubleExp 0x40EFFE00#32 ≠ 2047 ∧ roundedMagnitude (doubleMagnitude 0x40EFFE00#32 0x00000000#32) ≥ 2 ^ 16) ∧
    (doubleExp 0x40EFFDFF#32 ≠ 2047 ∧ roundedMagnitude (doubleMagnitude 0x40EFFDFF#32 0xFFFFFFFF#32) < 2 ^ 16) := by
  have h1 : doubleExp 0x40EFFE00#32 = 1038 := by decide
  have h2 : doubleMant 0x40EFFE00#32 0x00000000#32 = 0xFFE0000000000 := by decide
  have h3 : doubleExp 0x40EFFDFF#32 = 1038 := by decide
  have h4 : doubleMant 0x40EFFDFF#32 0xFFFFFFFF#32 = 0xFFDFFFFFFFFFF := by decide
  have v1 : doubleMagnitude 0x40EFFE00#32 0x00000000#32 = 65520 := by
    simp only [doubleMagnitude, magnitude, h1, h2]; norm_num
  refine ⟨⟨by decide, v1 ▸ roundedMagnitude_at_65520.1⟩, by decide, roundedMagnitude_at_65520.2 _ ?_ ?_⟩ <;>
    (simp only [doubleMagnitude, magnitude, h3, h4]; norm_num)

theorem witness_UnderflowThresholds :
    [0x32FFFFFF#32, 0x33000000#32, 0x33BFFFFF#32, 0x33C00000#32].map singleIsNan = [false, false, false, false] ∧
    [0x3E5FFFFF#32, 0x3E600000#32, 0x3E77FFFF#32].map doubleHiIsNan = [false, false, false] := by decide

theorem witness_OverflowThresholds :
    singleIsNan 0x477FEFFF#32 = false ∧ (BitVec.extractLsb' 0 31 0x477FEFFF#32).toNat < 0x477FF000 ∧
    doubleHiIsNan 0x40EFFDFF#32 = false ∧ (BitVec.extractLsb' 0 31 0x40EFFDFF#32).toNat < 0x40EFFE00 := by decide

theorem witness_EncodersAreMonotone :
    singleIsNan 0x3F800000#32 = false ∧ singleIsNan 0x3F801000#32 = false ∧
    (BitVec.extractLsb' 0 31 0x3F800000#32).toNat ≤ (BitVec.extractLsb' 0 31 0x3F801000#32).toNat ∧
    doubleHiIsNan 0x3FF00000#32 = false ∧ doubleHiIsNan 0x3FF00200#32 = false ∧
    (BitVec.extractLsb' 0 31 0x3FF00000#32).toNat ≤ (BitVec.extractLsb' 0 31 0x3FF00200#32).toNat := by decide

theorem witness_ImageOfTheEncoders :
    halfIsNan 0x3C00#16 = false ∧ halfIsNan (s2h 0x7FC00000#32) = true ∧ halfIsNan (d2h 0x7FF80000#32) = true := by decide

theorem witness_EncodersAgreeOnEqualValues :
    (singleExp 0x3F800000#32 ≠ 255 ∧ doubleExp 0x3FF00000#32 ≠ 2047 ∧ wordSign 0x3F800000#32 = wordSign 0x3FF00000#32 ∧
      singleMagnitude 0x3F800000#32 = doubleMagnitude 0x3FF00000#32 0x00000000#32) ∧
    (singleExp 0xFF800000#32 = 255 ∧ singleMant 0xFF800000#32 = 0 ∧ doubleExp 0xFFF00000#32 = 2047 ∧
      doubleMantHi 0xFFF00000#32 = 0 ∧ wordSign 0xFF800000#32 = wordSign 0xFFF00000#32) := by
  refine ⟨⟨by decide, by decide, by decide, ?_⟩, by decide⟩
  have h1 : singleExp 0x3F800000#32 = 127 := by decide
  have h2 : singleMant 0x3F800000#32 = 0 := by decide
  have h3 : doubleExp 0x3FF00000#32 = 1023 := by decide
  have h4 : doubleMant 0x3FF00000#32 0x00000000#32 = 0 := by decide
  simp only [singleMagnitude, doubleMagnitude, magnitude, h1, h2, h3, h4]
  norm_num

/-- One half of each class, the denormals at both ends. -/
theorem witness_H2SByClass :
    [0x0000#16, 0x0001#16, 0x03FF#16, 0x0400#16, 0x7BFF#16, 0x7C00#16, 0x7C01#16].map (fun h => (halfExp h, halfMant h)) =
      [(0, 0), (0, 1), (0, 1023), (1, 0), (30, 1023), (31, 0), (31, 1)] := by decide
theorem witness_H2DByClass :
    [0x8000#16, 0x8001#16, 0x83FF#16, 0x8400#16, 0xFBFF#16, 0xFC00#16, 0xFFFF#16].map (fun h => (halfExp h, halfMant h)) =
      [(0, 0), (0, 1), (0, 1023), (1, 0), (30, 1023), (31, 0), (31, 1023)] := by decide

theorem witness_WideningToSinglesIsExact :
    halfExp 0x0001#16 ≠ 31 ∧ halfIsInf 0xFC00#16 = true ∧ halfIsNan 0x0001#16 = false ∧
    h2s 0x0001#16 = h2s 0x0001#16 ∧ singleExp (h2s 0x8000#16) = 0 := by decide
theorem witness_WideningToDoublesIsExact :
    halfExp 0x03FF#16 ≠ 31 ∧ halfIsInf 0x7C00#16 = true ∧ halfIsNan 0x03FF#16 = false ∧
    doubleExp (h2d 0xFFF80000#32 0x8000#16).1 = 0 := by decide
theorem witness_H2DAgreesWithH2S :
    [0x0000#16, 0x7C00#16, 0x3C00#16].map (fun h => (halfIsNan h, singleExp (h2s h))) =
      [(false, 0), (false, 255), (false, 127)] := by decide

theorem witness_HalvesSurviveTheRoundTrip : isNanHighWord 0xFFF80000#32 = true ∧ isNanHighWord 0x7FF00001#32 = true := by decide
theorem witness_WideRoundTripFixesTheDecoderImage : isNanHighWord 0xFFF80000#32 = true := by decide
theorem witness_ConversionsAreSignSymmetric :
    singleIsNan 0x33000000#32 = false ∧ doubleHiIsNan 0x7FF00000#32 = false ∧ halfIsNan 0x03FF#16 = false := by decide
theorem witness_NansAreCanonical :
    singleIsNan 0x7F800001#32 = true ∧ doubleHiIsNan 0x7FF00001#32 = true ∧ doubleExp 0xFFF00000#32 = 2047 ∧
    doubleMantHi 0xFFF00000#32 = 0 ∧ doubleMant 0xFFF00000#32 0x00000001#32 ≠ 0 ∧ halfIsNan 0x7C01#16 = true := by decide

end Sys2Proof.Machine.Tests
end

section
/-! PROOFS. No step changes a parameter (00_scope R9). -/

namespace Sys2Proof.Machine

/-- A host action with a meaning leaves the parameters alone, the issue of a command included. -/
theorem hostAct_keeps_platform {act : HostAction} {s t : State} (h : hostAct act s = .next t) :
    t.platform = s.platform := by
  rcases hostAct_next h with ⟨v, i, -, hx⟩ | ⟨p, -, rfl⟩ | ⟨a, b, -, -, rfl⟩ | ⟨hp, -⟩
  · rw [(exec_next hx).1]
  · rfl
  · rfl
  · exact hp

/-- Settles O41, by the case of a step: nothing pending, or one host action. -/
theorem parametersAreConstant : Obligations.ParametersAreConstant := by
  unfold Obligations.ParametersAreConstant
  intro s t h
  rcases stepHost_next h with ⟨-, rfl⟩ | ⟨act, rest, -, ha⟩
  · rfl
  · exact (hostAct_keeps_platform ha :)

end Sys2Proof.Machine
end

section
/-! PROOFS. The rounding rule on real values (45 R207) in whole-number arithmetic: for a finite value of a wide format, the
rounded magnitude is the magnitude that the bits of the encoders' rounding stand for. Nothing here speaks of bit vectors. -/

namespace Sys2Proof.Machine

/-- `n / 2^(s+1)` rounded to the nearest integer, ties up: the quotient and the highest bit that was shifted out (41 R126,
R128; 42 R146, R148). -/
def roundShift (n s : ℕ) : ℕ := n / 2 ^ (s + 1) + n / 2 ^ s % 2

/-- Adding the highest bit shifted out is adding half of the divisor before the shift. -/
theorem roundShift_eq_div (n s : ℕ) : roundShift n s = (n + 2 ^ s) / 2 ^ (s + 1) := by
  rw [roundShift, pow_succ, ← Nat.div_div_eq_div_mul, ← Nat.div_div_eq_div_mul, Nat.add_div_right _ (Nat.two_pow_pos s)]
  omega

/-- Rounding by the floor of the quotient and a half (45 R207) is the encoders' rounding by the highest bit shifted out. -/
theorem floor_half_up (n s : ℕ) : ⌊(n : ℚ) / 2 ^ (s + 1) + 1 / 2⌋ = (roundShift n s : ℤ) := by
  have hv : (n : ℚ) / 2 ^ (s + 1) + 1 / 2 = (n + 2 ^ s : ℕ) / (2 ^ (s + 1) : ℕ) := by
    push_cast
    field_simp
    ring
  rw [roundShift_eq_div, hv, Rat.floor_natCast_div_natCast, Int.natCast_div]

/-- Less than half a unit rounds to zero. -/
theorem roundShift_eq_zero {n s : ℕ} (h : n < 2 ^ s) : roundShift n s = 0 := by
  rw [roundShift_eq_div]
  exact Nat.div_eq_of_lt (by rw [pow_succ]; omega)

/-- A number of at most `s + 1 + k` bits rounds to at most `2^k`. -/
theorem roundShift_le {n s k : ℕ} (h : n < 2 ^ (k + s + 1)) : roundShift n s ≤ 2 ^ k := by
  rw [roundShift_eq_div, ← Nat.lt_succ_iff, Nat.div_lt_iff_lt_mul (Nat.two_pow_pos _), Nat.succ_mul, ← pow_add]
  have : 2 ^ (s + 1) = 2 * 2 ^ s := by ring
  have := Nat.two_pow_pos s
  rw [← add_assoc]
  omega

/-- A multiple of the divisor passes through the rounding. -/
theorem roundShift_add_mul (c m s : ℕ) : roundShift (2 ^ (s + 1) * c + m) s = c + roundShift m s := by
  rw [roundShift_eq_div, roundShift_eq_div, add_assoc, Nat.mul_add_div (Nat.two_pow_pos _)]

/-- Bits below the highest bit shifted out do not matter: the low word of a double (42 R149). -/
theorem roundShift_low_bits (n s : ℕ) {lo k : ℕ} (h : lo < 2 ^ k) :
    roundShift (n * 2 ^ k + lo) (s + k) = roundShift n s := by
  have hdiv (t : ℕ) : (n * 2 ^ k + lo) / 2 ^ (t + k) = n / 2 ^ t := by
    rw [pow_add, mul_comm (2 ^ t), ← Nat.div_div_eq_div_mul, mul_comm n, Nat.mul_add_div (Nat.two_pow_pos k),
      Nat.div_eq_of_lt h, add_zero]
  rw [roundShift, roundShift, hdiv, add_right_comm, hdiv]

/-- The magnitude of the half whose bits 14:0 are `b`, carried on beyond the largest finite half. -/
def gridValue (b : ℕ) : ℚ := magnitude 5 10 (b / 1024) (b % 1024)

/-- A denormal half, or the smallest normal one, `0x0400`. -/
theorem gridValue_denormal {c : ℕ} (h : c ≤ 1024) : gridValue c = c * 2 ^ (-24 : ℤ) := by
  rcases h.lt_or_eq with h | rfl
  · rw [gridValue, Nat.div_eq_of_lt h, Nat.mod_eq_of_lt h, magnitude, if_pos rfl]
    norm_num
  · norm_num [gridValue, magnitude]

/-- A normal half, or the one above it that a carry out of its mantissa reaches. -/
theorem gridValue_normal {j c : ℕ} (hj : 0 < j) (h : c ≤ 1024) :
    gridValue (1024 * j + c) = (1024 + c) * 2 ^ ((j : ℤ) - 25) := by
  rcases h.lt_or_eq with h | rfl
  · have hexp : (j : ℤ) - (2 ^ (5 - 1) - 1) - (10 : ℕ) = j - 25 := by norm_num; ring
    rw [gridValue, Nat.mul_add_div (by norm_num), Nat.div_eq_of_lt h, Nat.mul_add_mod, Nat.mod_eq_of_lt h, add_zero,
      magnitude, if_neg (by omega), hexp]
    norm_num
  · have hexp : ((j + 1 : ℕ) : ℤ) - (2 ^ (5 - 1) - 1) - (10 : ℕ) = (j - 25) + 1 := by push_cast; ring
    rw [gridValue, ← Nat.mul_succ, Nat.mul_div_cancel_left _ (by norm_num), Nat.mul_mod_right, magnitude,
      if_neg (by omega), hexp, zpow_add_one₀ (by norm_num)]
    push_cast
    ring

/-- Below the pattern of the infinity, `0x7C00`, every magnitude is below 2^16, and from it on it is not (45 R209). -/
theorem gridValue_lt_iff (b : ℕ) : gridValue b < 2 ^ 16 ↔ b < 31744 := by
  obtain ⟨j, c, hc, rfl⟩ : ∃ j c, c < 1024 ∧ b = 1024 * j + c :=
    ⟨b / 1024, b % 1024, Nat.mod_lt _ (by norm_num), (Nat.div_add_mod b 1024).symm⟩
  have hcq : (c : ℚ) < 1024 := by exact_mod_cast hc
  rcases Nat.eq_zero_or_pos j with rfl | hj
  · rw [Nat.mul_zero, zero_add, gridValue_denormal hc.le]
    refine iff_of_true ?_ (by omega)
    calc (c : ℚ) * 2 ^ (-24 : ℤ) ≤ 2 ^ 10 * 2 ^ (-24 : ℤ) := by gcongr; linarith
      _ < 2 ^ 16 := by norm_num
  · rw [gridValue_normal hj hc.le]
    rcases Nat.lt_or_ge j 31 with h | h
    · refine iff_of_true ?_ (by omega)
      have hp : (2 : ℚ) ^ ((j : ℤ) - 25) ≤ 2 ^ (5 : ℤ) := zpow_le_zpow_right₀ (by norm_num) (by omega)
      calc (1024 + c : ℚ) * 2 ^ ((j : ℤ) - 25) < 2 ^ 11 * 2 ^ ((j : ℤ) - 25) := by gcongr; linarith
        _ ≤ 2 ^ 11 * 2 ^ (5 : ℤ) := by gcongr
        _ = 2 ^ 16 := by norm_num
    · refine iff_of_false (not_lt.mpr ?_) (by omega)
      have hp : (2 : ℚ) ^ (6 : ℤ) ≤ 2 ^ ((j : ℤ) - 25) := zpow_le_zpow_right₀ (by norm_num) (by omega)
      calc (2 ^ 16 : ℚ) = 2 ^ 10 * 2 ^ (6 : ℤ) := by norm_num
        _ ≤ 2 ^ 10 * 2 ^ ((j : ℤ) - 25) := by gcongr
        _ ≤ (1024 + c) * 2 ^ ((j : ℤ) - 25) := by gcongr; linarith

/-- The quantum is 2^-24 on the denormal range. -/
theorem quantum_denormal {v : ℚ} (h : v < 2 ^ (-14 : ℤ)) : quantum v = 2 ^ (-24 : ℤ) := if_pos h

/-- The quantum between 2^e and 2^(e+1) is 2^(e-10). -/
theorem quantum_normal {v : ℚ} {e : ℤ} (he : -14 ≤ e) (hl : (2 : ℚ) ^ e ≤ v) (hu : v < 2 ^ (e + 1)) :
    quantum v = 2 ^ (e - 10) := by
  have hv : 0 < v := lt_of_lt_of_le (by positivity) hl
  have hlog : Int.log 2 v = e :=
    le_antisymm (Int.lt_add_one_iff.mp ((Int.lt_zpow_iff_log_lt (by norm_num) hv).mp (by exact_mod_cast hu)))
      ((Int.zpow_le_iff_le_log (by norm_num) hv).mp (by exact_mod_cast hl))
  rw [quantum, if_neg (not_lt.mpr ((zpow_le_zpow_right₀ (by norm_num) he).trans hl)), hlog]

/-- A magnitude of `n` units of 2^-(s+1) quanta rounds to `roundShift n s` quanta (45 R207). -/
theorem roundedMagnitude_of_quantum {v : ℚ} {q : ℤ} (n s : ℕ) (hq : quantum v = 2 ^ q)
    (hv : v = n * 2 ^ (q - (s + 1))) : roundedMagnitude v = roundShift n s * 2 ^ q := by
  have hd : v / quantum v = n / 2 ^ (s + 1) := by
    rw [hq, hv, zpow_sub₀ (by norm_num)]
    field_simp
    norm_cast
  rw [roundedMagnitude, hd, hq, floor_half_up]
  norm_cast

/-- The value 1.m times 2^k lies between 2^k and 2^(k+1). -/
theorem significand_bounds {M m : ℕ} (hm : m < 2 ^ M) (k : ℤ) :
    (2 : ℚ) ^ k ≤ (2 ^ M + m) * 2 ^ (k - M) ∧ ((2 : ℚ) ^ M + m) * 2 ^ (k - M) < 2 ^ (k + 1) := by
  have hmq : (m : ℚ) < 2 ^ M := by exact_mod_cast hm
  have hk : (2 : ℚ) ^ k = 2 ^ M * 2 ^ (k - M) := by
    rw [← zpow_natCast, ← zpow_add₀ (by norm_num), add_sub_cancel]
  rw [zpow_add_one₀ (by norm_num), hk, mul_right_comm]
  constructor
  · gcongr
    exact le_add_of_nonneg_right m.cast_nonneg
  · gcongr
    linarith

/-- The low 15 bits that an encoder's rounding gives, `0x7C00` and above standing for overflow: from the exponent field `e`
and the `M` mantissa bits `m`, where `d` is how much the bias exceeds the bias of a half (41 R126, R128; 42 R146, R148). -/
def roundedBits (d M e m : ℕ) : ℕ :=
  if e = 0 then 0
  else if e ≤ d then roundShift (2 ^ M + m) (M + d - 10 - e)
  else 1024 * (e - d) + roundShift m (M - 11)

section
variable {d M e m : ℕ} (hM : 11 ≤ M) (hm : m < 2 ^ M)
include hM hm

/-- A denormal of the wide format rounds to zero. -/
theorem roundedMagnitude_wide_denormal (hd : 11 ≤ d) :
    roundedMagnitude (m * 2 ^ ((-14 - d : ℤ) - M)) = 0 := by
  have hlt : (m : ℚ) * 2 ^ (-14 - d - M : ℤ) < 2 ^ (-14 : ℤ) :=
    calc (m : ℚ) * 2 ^ (-14 - d - M : ℤ) ≤ (2 ^ M + m) * 2 ^ (-14 - d - M : ℤ) := by
          gcongr
          exact le_add_of_nonneg_left (by positivity)
      _ < 2 ^ (-14 - d + 1 : ℤ) := (significand_bounds hm (-14 - d)).2
      _ ≤ 2 ^ (-14 : ℤ) := zpow_le_zpow_right₀ (by norm_num) (by omega)
  rw [roundedMagnitude_of_quantum m (M + d - 11) (quantum_denormal hlt) (by congr 2; omega),
    roundShift_eq_zero (hm.trans_le (Nat.pow_le_pow_right (by norm_num) (by omega))), Nat.cast_zero, zero_mul]

/-- A normal value below 2^-14 rounds to a multiple of 2^-24. -/
theorem roundedMagnitude_underflow (he : e ≤ d) :
    roundedMagnitude ((2 ^ M + m) * 2 ^ ((e - d - 15 : ℤ) - M)) =
      gridValue (roundShift (2 ^ M + m) (M + d - 10 - e)) := by
  have hlt := (significand_bounds hm (e - d - 15)).2.trans_le
    (zpow_le_zpow_right₀ (by norm_num) (show (e - d - 15 + 1 : ℤ) ≤ -14 by omega))
  have hn : 2 ^ M + m < 2 ^ (10 + (M + d - 10 - e) + 1) :=
    calc 2 ^ M + m < 2 ^ (M + 1) := by rw [pow_succ]; omega
      _ ≤ _ := Nat.pow_le_pow_right (by norm_num) (by omega)
  rw [roundedMagnitude_of_quantum (2 ^ M + m) (M + d - 10 - e) (quantum_denormal hlt) (by push_cast; congr 2; omega),
    gridValue_denormal (roundShift_le hn)]

/-- A value of at least 2^-14 rounds to a mantissa of the same exponent, or by a carry to the next one. -/
theorem roundedMagnitude_in_range (he : d < e) :
    roundedMagnitude ((2 ^ M + m) * 2 ^ ((e - d - 15 : ℤ) - M)) =
      gridValue (1024 * (e - d) + roundShift m (M - 11)) := by
  obtain ⟨hl, hu⟩ := significand_bounds hm (e - d - 15)
  have hq := quantum_normal (by omega) hl hu
  have hn : 2 ^ M + m = 2 ^ (M - 11 + 1) * 1024 + m := by
    rw [show 1024 = 2 ^ 10 by norm_num, ← pow_add, show M - 11 + 1 + 10 = M by omega]
  have hc : roundShift m (M - 11) ≤ 1024 :=
    roundShift_le (k := 10) (hm.trans_le (Nat.pow_le_pow_right (by norm_num) (by omega)))
  rw [roundedMagnitude_of_quantum (2 ^ M + m) (M - 11) hq (by push_cast; congr 2; omega), hn, roundShift_add_mul,
    gridValue_normal (by omega) hc]
  push_cast [he.le]
  ring_nf

end

/-- The rounding of a finite value is the magnitude that the encoder's bits stand for (45 R207). -/
theorem roundedMagnitude_magnitude {E M d e m : ℕ} (hE : 2 ^ (E - 1) = d + 16) (hd : 11 ≤ d) (hM : 11 ≤ M)
    (hm : m < 2 ^ M) : roundedMagnitude (magnitude E M e m) = gridValue (roundedBits d M e m) := by
  have hE' : (2 : ℤ) ^ (E - 1) = d + 16 := by exact_mod_cast hE
  have hden : (1 - (d + 16 - 1) - M : ℤ) = -14 - d - M := by ring
  have hexp : (e - (d + 16 - 1) - M : ℤ) = e - d - 15 - M := by ring
  rw [magnitude, roundedBits, hE', hden, hexp]
  split_ifs with h0 hle
  · rw [roundedMagnitude_wide_denormal hM hm hd, gridValue_denormal (by norm_num), Nat.cast_zero, zero_mul]
  · exact roundedMagnitude_underflow hM hm hle
  · exact roundedMagnitude_in_range hM hm (by omega)

end Sys2Proof.Machine
end

section
/-! PROOFS. What the encoders S2H and D2H answer on a finite input, as whole numbers (41 R121, 42 R141). -/

namespace Sys2Proof.Machine

/-- The bits of a value shifted to a position above `v` are added to `v`. -/
theorem shiftLeft_or_toNat {a v : Half} {k : ℕ} (ha : a.toNat * 2 ^ k < 2 ^ 16) (hv : v.toNat < 2 ^ k) :
    (a <<< k ||| v).toNat = 2 ^ k * a.toNat + v.toNat := by
  rw [BitVec.toNat_or, BitVec.toNat_shiftLeft, Nat.shiftLeft_eq, Nat.mod_eq_of_lt ha, mul_comm,
    Nat.two_pow_add_eq_or_of_lt hv]

/-- The sign bit above the other 15 bits (41 R129). -/
theorem signedHalf_toNat (xs : BitVec 1) {v : Half} (hv : v.toNat < 2 ^ 15) :
    (signedHalf xs v).toNat = 2 ^ 15 * xs.toNat + v.toNat := by
  have hxs : xs.toNat < 2 := xs.isLt
  have hw : (xs.setWidth 16).toNat = xs.toNat := by rw [BitVec.toNat_setWidth, Nat.mod_eq_of_lt (by omega)]
  rw [signedHalf, shiftLeft_or_toNat (by omega) hv, hw]

/-- The exponent and mantissa fields of a half, packed. -/
theorem exponent_or_mantissa_toNat {j : ℕ} {f : Half} (hj : j < 32) (hf : f.toNat < 2 ^ 10) :
    (BitVec.ofInt 16 j <<< 10 ||| f).toNat = 1024 * j + f.toNat := by
  have hn : (BitVec.ofInt 16 j).toNat = j := by
    rw [BitVec.ofInt_natCast, BitVec.toNat_ofNat, Nat.mod_eq_of_lt (by omega)]
  rw [shiftLeft_or_toNat (by omega) hf, hn]
  norm_num

/-- The leading bit of a normal mantissa, restored. -/
theorem leadingBit_or_toNat {w : ℕ} (xm : BitVec w) :
    (BitVec.twoPow (w + 1) w ||| xm.setWidth (w + 1)).toNat = 2 ^ w + xm.toNat := by
  rw [BitVec.toNat_or, BitVec.toNat_twoPow, BitVec.toNat_setWidth,
    Nat.mod_eq_of_lt (Nat.pow_lt_pow_right (by norm_num) (by omega)),
    Nat.mod_eq_of_lt (xm.isLt.trans (Nat.pow_lt_pow_right (by norm_num) (by omega)))]
  simpa using (Nat.two_pow_add_eq_or_of_lt xm.isLt 1).symm

/-- The shifted word plus the highest bit shifted out, as the encoders write it (41 R126, 42 R146). -/
theorem shift_add_bit_toNat {w : ℕ} (n : BitVec (w + 1)) (s : ℕ) (h : roundShift n.toNat s < 2 ^ 16) :
    ((n >>> (s + 1)).setWidth 16 + ((n >>> s) &&& 1#(w + 1)).setWidth 16).toNat = roundShift n.toNat s := by
  have hbit : n.toNat / 2 ^ s % 2 < 2 := Nat.mod_lt _ (by norm_num)
  rw [roundShift] at h ⊢
  rw [BitVec.toNat_add, BitVec.toNat_setWidth, BitVec.toNat_setWidth, BitVec.toNat_and, BitVec.toNat_ushiftRight,
    BitVec.toNat_ushiftRight, BitVec.toNat_one (by omega), Nat.and_one_is_mod, Nat.shiftRight_eq_div_pow,
    Nat.shiftRight_eq_div_pow, ← Nat.add_mod, Nat.mod_eq_of_lt h]

/-- The underflow mantissa is a denormal half, or the smallest normal one by a carry. -/
theorem roundShift_underflow_le {w s m : ℕ} (hs : w ≤ s + 10) (hm : m < 2 ^ w) : roundShift (2 ^ w + m) s ≤ 1024 :=
  roundShift_le (k := 10) <|
    calc 2 ^ w + m < 2 ^ (w + 1) := by rw [pow_succ]; omega
      _ ≤ _ := Nat.pow_le_pow_right (by norm_num) (by omega)

/-- The normal case of both encoders: sign, exponent and truncated mantissa packed, and the highest bit shifted out added to
the whole word (41 R128, 42 R148). -/
theorem signedHalf_add_bit_toNat (xs : BitVec 1) {j s : ℕ} (hj : j < 31) (xm : BitVec (s + 11)) :
    (signedHalf xs (BitVec.ofInt 16 j <<< 10 ||| (xm >>> (s + 1)).setWidth 16) +
      (xm.extractLsb' s 1).setWidth 16).toNat = 2 ^ 15 * xs.toNat + (1024 * j + roundShift xm.toNat s) := by
  have hq : xm.toNat / 2 ^ (s + 1) < 2 ^ 10 := Nat.div_lt_of_lt_mul (by rw [← pow_add, add_right_comm]; exact xm.isLt)
  have hf : ((xm >>> (s + 1)).setWidth 16 : Half).toNat = xm.toNat / 2 ^ (s + 1) := by
    rw [BitVec.toNat_setWidth, BitVec.toNat_ushiftRight, Nat.shiftRight_eq_div_pow, Nat.mod_eq_of_lt (by omega)]
  have hb : ((xm.extractLsb' s 1).setWidth 16 : Half).toNat = xm.toNat / 2 ^ s % 2 := by
    rw [BitVec.toNat_setWidth, BitVec.extractLsb'_toNat, Nat.shiftRight_eq_div_pow]
    omega
  have hpack := exponent_or_mantissa_toNat (j := j) (by omega) (hf ▸ hq)
  have hxs := xs.isLt
  rw [BitVec.toNat_add, signedHalf_toNat xs (by omega), hpack, hf, hb, roundShift, Nat.mod_eq_of_lt (by omega)]
  ring

/-- An encoder that answers zero, underflow, normal case and infinity by the exponent field, as 41 R121 and 42 R141 do,
answers the sign and the rounded bits, saturated at the infinity (45 R207). -/
theorem toNat_of_exponent_cases {r : Half} {xs : BitVec 1} {d M e m : ℕ} (hM : 11 ≤ M) (hm : m < 2 ^ M)
    (hzero : e = 0 → r = signedHalf xs 0#16)
    (hunder : 0 < e → e ≤ d → ∃ u, r = signedHalf xs u ∧ u.toNat = roundShift (2 ^ M + m) (M + d - 10 - e))
    (hnormal : d < e → e < d + 31 → r.toNat = 2 ^ 15 * xs.toNat + (1024 * (e - d) + roundShift m (M - 11)))
    (hover : d + 31 ≤ e → r = signedHalf xs 0x7C00#16) :
    r.toNat = 2 ^ 15 * xs.toNat + min (roundedBits d M e m) 0x7C00 := by
  rw [roundedBits]
  split_ifs with h0 hle
  · rw [hzero h0, signedHalf_toNat xs (by decide)]
    rfl
  · have hr : roundShift (2 ^ M + m) (M + d - 10 - e) ≤ 1024 := roundShift_underflow_le (by omega) hm
    obtain ⟨u, rfl, hu⟩ := hunder (by omega) hle
    rw [signedHalf_toNat xs (by omega), hu, min_eq_left (by omega)]
  · have hr : roundShift m (M - 11) ≤ 1024 :=
      roundShift_le (k := 10) (hm.trans_le (Nat.pow_le_pow_right (by norm_num) (by omega)))
    rcases Nat.lt_or_ge e (d + 31) with hlt | hge
    · rw [hnormal (by omega) hlt, min_eq_left (by omega)]
    · rw [hover hge, signedHalf_toNat xs (by decide), min_eq_right (by omega)]
      rfl

/-- A word whose bits 30:0 are zero has only zero fields below the sign. -/
theorem field_eq_zero_of_bits {x : Word} {i n : ℕ} (hin : i + n ≤ 31) (h : x.extractLsb' 0 31 = 0#31) :
    (x.extractLsb' i n).toNat = 0 := by
  have hfield : x.extractLsb' i n = (x.extractLsb' 0 31).extractLsb' i n := by
    ext k hk
    simpa using by omega
  rw [hfield, h]
  simp

/-! ### S2H -/

/-- The underflow mantissa, no shift count excepted: past the guard the rounding gives zero by itself (41 R126). -/
theorem s2hUnderflow_toNat {e : ℕ} (he : e ≤ 112) (xm : BitVec 23) :
    (s2hUnderflow ((e : ℤ) - 127 + 15) xm).toNat = roundShift (2 ^ 23 + xm.toNat) (125 - e) := by
  have hxm := xm.isLt
  rw [s2hUnderflow]
  split_ifs with h
  · have hpow : 2 ^ 24 ≤ 2 ^ (125 - e) := Nat.pow_le_pow_right (by norm_num) (by omega)
    exact (roundShift_eq_zero (by omega)).symm
  · have hs : ((14 : ℤ) - ((e : ℤ) - 127 + 15)).toNat = 125 - e + 1 := by omega
    have hs' : ((14 : ℤ) - ((e : ℤ) - 127 + 15) - 1).toNat = 125 - e := by omega
    have hn : (0x800000#24 ||| xm.setWidth 24).toNat = 2 ^ 23 + xm.toNat := leadingBit_or_toNat xm
    have hle : roundShift (2 ^ 23 + xm.toNat) (125 - e) ≤ 1024 := roundShift_underflow_le (by omega) hxm
    rw [hs, hs', shift_add_bit_toNat _ _ (by rw [hn]; omega), hn]

/-- The normal case, the carry out of the mantissa included (41 R128). -/
theorem s2hNormal_toNat (xs : BitVec 1) {e : ℕ} (hl : 112 < e) (hu : e < 143) (xm : BitVec 23) :
    (s2hNormal xs ((e : ℤ) - 127 + 15) xm).toNat =
      2 ^ 15 * xs.toNat + (1024 * (e - 112) + roundShift xm.toNat 12) := by
  have he : (e : ℤ) - 127 + 15 = (e - 112 : ℕ) := by omega
  rw [s2hNormal, he]
  exact signedHalf_add_bit_toNat xs (by omega) xm

/-- A zero or denormal single gives the signed zero (41 R123). -/
theorem s2h_of_exp_zero {x : Word} (h : singleExp x = 0) : s2h x = signedHalf (x.extractLsb' 31 1) 0#16 := by
  simp only [s2h, ← singleExp.eq_def, h, if_true, ite_self]

/-- S2H of a normal single, by its re-biased exponent (41 R126, R127, R128). -/
theorem s2h_of_normal {x : Word} (h0 : singleExp x ≠ 0) (h1 : singleExp x ≠ 255) :
    s2h x =
      if 143 ≤ singleExp x then signedHalf (x.extractLsb' 31 1) 0x7C00#16
      else if singleExp x ≤ 112 then
        signedHalf (x.extractLsb' 31 1) (s2hUnderflow ((singleExp x : ℤ) - 127 + 15) (x.extractLsb' 0 23))
      else s2hNormal (x.extractLsb' 31 1) ((singleExp x : ℤ) - 127 + 15) (x.extractLsb' 0 23) := by
  have hz : ¬ x.extractLsb' 0 31 = 0#31 := fun h => h0 (field_eq_zero_of_bits (by norm_num) h)
  have hov : (singleExp x : ℤ) - 127 + 15 ≥ 31 ↔ 143 ≤ singleExp x := by omega
  have hun : (singleExp x : ℤ) - 127 + 15 ≤ 0 ↔ singleExp x ≤ 112 := by omega
  simp only [s2h, ← singleExp.eq_def, hz, h0, h1, if_false, hov, hun]

/-- S2H of a finite single: the sign, and the rounded bits saturated at the infinity (41 R121, 45 R207). -/
theorem s2h_toNat {x : Word} (h : singleExp x ≠ 255) :
    (s2h x).toNat =
      2 ^ 15 * (x.extractLsb' 31 1).toNat + min (roundedBits 112 23 (singleExp x) (singleMant x)) 0x7C00 := by
  refine toNat_of_exponent_cases (by norm_num) (x.extractLsb' 0 23).isLt s2h_of_exp_zero ?_ ?_ ?_
  · intro h0 hle
    rw [s2h_of_normal (by omega) h, if_neg (by omega), if_pos hle]
    exact ⟨_, rfl, s2hUnderflow_toNat hle _⟩
  · intro hlt hu
    rw [s2h_of_normal (by omega) h, if_neg (by omega), if_neg (by omega)]
    exact s2hNormal_toNat _ hlt hu _
  · intro hge
    rw [s2h_of_normal (by omega) h, if_pos hge]

/-! ### D2H -/

/-- The underflow mantissa, no shift count excepted: past the guard the rounding gives zero by itself (42 R146). -/
theorem d2hUnderflow_toNat {e : ℕ} (he : e ≤ 1008) (xm : BitVec 20) :
    (d2hUnderflow ((e : ℤ) - 1023 + 15) xm).toNat = roundShift (2 ^ 20 + xm.toNat) (1018 - e) := by
  have hxm := xm.isLt
  rw [d2hUnderflow]
  split_ifs with h
  · have hpow : 2 ^ 21 ≤ 2 ^ (1018 - e) := Nat.pow_le_pow_right (by norm_num) (by omega)
    exact (roundShift_eq_zero (by omega)).symm
  · have hs : ((11 : ℤ) - ((e : ℤ) - 1023 + 15)).toNat = 1018 - e + 1 := by omega
    have hs' : ((10 : ℤ) - ((e : ℤ) - 1023 + 15)).toNat = 1018 - e := by omega
    have hn : (0x100000#21 ||| xm.setWidth 21).toNat = 2 ^ 20 + xm.toNat := leadingBit_or_toNat xm
    have hle : roundShift (2 ^ 20 + xm.toNat) (1018 - e) ≤ 1024 := roundShift_underflow_le (by omega) hxm
    rw [hs, hs', shift_add_bit_toNat _ _ (by rw [hn]; omega), hn]

/-- The normal case, the carry out of the mantissa included (42 R148). -/
theorem d2hNormal_toNat (xs : BitVec 1) {e : ℕ} (hl : 1008 < e) (hu : e < 1039) (xm : BitVec 20) :
    (d2hNormal xs ((e : ℤ) - 1023 + 15) xm).toNat =
      2 ^ 15 * xs.toNat + (1024 * (e - 1008) + roundShift xm.toNat 9) := by
  have he : (e : ℤ) - 1023 + 15 = (e - 1008 : ℕ) := by omega
  rw [d2hNormal, he]
  exact signedHalf_add_bit_toNat xs (by omega) xm

/-- A zero or denormal double gives the signed zero (42 R143). -/
theorem d2h_of_exp_zero {hi : Word} (h : doubleExp hi = 0) : d2h hi = signedHalf (hi.extractLsb' 31 1) 0#16 := by
  simp only [d2h, ← doubleExp.eq_def, h, if_true, ite_self]

/-- D2H of a normal double, by its re-biased exponent (42 R146, R147, R148). -/
theorem d2h_of_normal {hi : Word} (h0 : doubleExp hi ≠ 0) (h1 : doubleExp hi ≠ 2047) :
    d2h hi =
      if 1039 ≤ doubleExp hi then signedHalf (hi.extractLsb' 31 1) 0x7C00#16
      else if doubleExp hi ≤ 1008 then
        signedHalf (hi.extractLsb' 31 1) (d2hUnderflow ((doubleExp hi : ℤ) - 1023 + 15) (hi.extractLsb' 0 20))
      else d2hNormal (hi.extractLsb' 31 1) ((doubleExp hi : ℤ) - 1023 + 15) (hi.extractLsb' 0 20) := by
  have hz : ¬ hi.extractLsb' 0 31 = 0#31 := fun h => h0 (field_eq_zero_of_bits (by norm_num) h)
  have hov : (doubleExp hi : ℤ) - 1023 + 15 ≥ 31 ↔ 1039 ≤ doubleExp hi := by omega
  have hun : (doubleExp hi : ℤ) - 1023 + 15 ≤ 0 ↔ doubleExp hi ≤ 1008 := by omega
  simp only [d2h, ← doubleExp.eq_def, hz, h0, h1, if_false, hov, hun]

/-- D2H of a finite double: the sign, and the rounded bits saturated at the infinity (42 R141, 45 R207). -/
theorem d2h_toNat {hi : Word} (h : doubleExp hi ≠ 2047) :
    (d2h hi).toNat =
      2 ^ 15 * (hi.extractLsb' 31 1).toNat + min (roundedBits 1008 20 (doubleExp hi) (doubleMantHi hi)) 0x7C00 := by
  refine toNat_of_exponent_cases (by norm_num) (hi.extractLsb' 0 20).isLt d2h_of_exp_zero ?_ ?_ ?_
  · intro h0 hle
    rw [d2h_of_normal (by omega) h, if_neg (by omega), if_pos hle]
    exact ⟨_, rfl, d2hUnderflow_toNat hle _⟩
  · intro hlt hu
    rw [d2h_of_normal (by omega) h, if_neg (by omega), if_neg (by omega)]
    exact d2hNormal_toNat _ hlt hu _
  · intro hge
    rw [d2h_of_normal (by omega) h, if_pos hge]

/-- The low word of a double does not reach the rounded bits (42 R149). -/
theorem roundedBits_low_bits {d M e m lo k : ℕ} (hM : 11 ≤ M) (hlo : lo < 2 ^ k) :
    roundedBits d (M + k) e (m * 2 ^ k + lo) = roundedBits d M e m := by
  rw [roundedBits, roundedBits]
  split_ifs with h0 hle
  · rfl
  · have hn : 2 ^ (M + k) + (m * 2 ^ k + lo) = (2 ^ M + m) * 2 ^ k + lo := by ring
    rw [hn, show M + k + d - 10 - e = M + d - 10 - e + k by omega, roundShift_low_bits _ _ hlo]
  · rw [show M + k - 11 = M - 11 + k by omega, roundShift_low_bits _ _ hlo]

end Sys2Proof.Machine
end

section
/-! PROOFS. The rounding law of the encoders (00_scope R15, 45 R207): their bits against the rounded value. -/

namespace Sys2Proof.Machine

/-- The fields of a half from its sign and its low 15 bits (10_state R20). -/
theorem half_fields {h : Half} {s : Bool} {b : ℕ} (hb : b < 2 ^ 15) (hh : h.toNat = 2 ^ 15 * s.toNat + b) :
    halfSign h = s ∧ halfExp h = b / 1024 ∧ halfMant h = b % 1024 := by
  refine ⟨?_, ?_, ?_⟩
  · rw [halfSign, BitVec.getLsbD, hh, Nat.testBit_two_pow_mul_add _ hb]
    cases s <;> simp
  · rw [halfExp, BitVec.extractLsb'_toNat, Nat.shiftRight_eq_div_pow, hh]
    omega
  · rw [halfMant, BitVec.extractLsb'_toNat, Nat.shiftRight_eq_div_pow, hh]
    omega

/-- The sign bit, as the encoders extract it and as the statements read it. -/
theorem signBit_toNat (x : Word) : (x.extractLsb' 31 1).toNat = (wordSign x).toNat := by
  rw [wordSign, BitVec.getLsbD, Nat.toNat_testBit, BitVec.extractLsb'_toNat, Nat.shiftRight_eq_div_pow]

/-- A half whose low bits are the rounded bits of a value, saturated at the infinity, is the rounding of the value
(45 R207). -/
theorem half_rounds_of_toNat {h : Half} {s : Bool} {b : ℕ} {v : ℚ} (hh : h.toNat = 2 ^ 15 * s.toNat + min b 0x7C00)
    (hv : roundedMagnitude v = gridValue b) :
    halfSign h = s ∧ (roundedMagnitude v ≥ 2 ^ 16 → halfIsInf h = true) ∧
      (roundedMagnitude v < 2 ^ 16 → halfExp h ≠ 31 ∧ halfMagnitude h = roundedMagnitude v) := by
  obtain ⟨hs, he, hm⟩ := half_fields (by omega) hh
  rw [halfIsInf, halfMagnitude, he, hm, hv, ge_iff_le, ← not_lt, gridValue_lt_iff]
  refine ⟨hs, fun hb => ?_, fun hb => ?_⟩
  · rw [min_eq_right (by omega)]
    rfl
  · rw [min_eq_left (by omega)]
    exact ⟨by omega, rfl⟩

/-- Settles O45: the encoder's bits and the rounded magnitude are both `roundedBits`. -/
theorem s2HRoundsToNearestTiesAway : Obligations.S2HRoundsToNearestTiesAway := by
  unfold Obligations.S2HRoundsToNearestTiesAway
  intro x hx
  have hbits := s2h_toNat hx
  rw [signBit_toNat] at hbits
  exact half_rounds_of_toNat hbits
    (roundedMagnitude_magnitude (by norm_num) (by norm_num) (by norm_num) (x.extractLsb' 0 23).isLt)

/-- Settles O46: as for singles, and the low word does not reach the rounded bits. -/
theorem d2HRoundsToNearestTiesAway : Obligations.D2HRoundsToNearestTiesAway := by
  unfold Obligations.D2HRoundsToNearestTiesAway
  intro hi lo hx
  have hmant : doubleMant hi lo < 2 ^ 52 := by
    have hhi : doubleMantHi hi < 2 ^ 20 := (hi.extractLsb' 0 20).isLt
    have hlo := lo.isLt
    rw [doubleMant]
    omega
  have hbits := d2h_toNat hx
  rw [signBit_toNat, ← roundedBits_low_bits (by norm_num) lo.isLt] at hbits
  exact half_rounds_of_toNat hbits (roundedMagnitude_magnitude (by norm_num) (by norm_num) (by norm_num) hmant)

end Sys2Proof.Machine
end

section
/-! PROOFS. The host port and reset: what a step does by the host's next action (10_state R30, R31, R35), what it leaves alone,
and the invariant of every step. -/

namespace Sys2Proof.Machine

/-! ### A step by the host's next action -/

theorem step_of_pending {s : State} {act : HostAction} {rest : List HostAction} (h : s.pending = act :: rest) :
    step s = hostAct act { s with pending := rest } := by
  rw [step, stepHost, h]

/-- What a step that is no command, no reset and no write of memory keeps: the host may have written an operand register,
within its width, or read something; nothing else of the block has moved. -/
structure HeldByStep (s t : State) : Prop where
  platform_eq : t.platform = s.platform
  cap_eq : t.cap = s.cap
  status_eq : t.status = s.status
  mem_eq : t.mem = s.mem
  freeEpoch_eq : t.freeEpoch = s.freeEpoch
  src_held : t.src = s.src ∨ t.src.value < 2 ^ s.platform.aw
  dst_held : t.dst = s.dst ∨ t.dst.value < 2 ^ s.platform.aw
  count_held : t.count = s.count ∨ t.count.value < 2 ^ s.platform.cw

theorem HeldByStep.refl (s : State) : HeldByStep s s :=
  ⟨rfl, rfl, rfl, rfl, rfl, .inl rfl, .inl rfl, .inl rfl⟩

/-- What a step can do: issue a command, reset the block, write one existing byte of memory, or hold the block. -/
theorem step_next {s t : State} (h : step s = .next t) :
    (∃ v i rest, s.pending = .writeReg 0 v :: rest ∧ exec i { s with pending := rest } = .next t) ∨
    (∃ p rest, s.pending = .reset p :: rest ∧ t = resetBlock p { s with pending := rest }) ∨
    (∃ a b rest, s.pending = .memWrite a b :: rest ∧ a < 2 ^ s.platform.aw ∧
      t = { s with pending := rest, mem := Memory.write s.mem a b }) ∨
    HeldByStep s t := by
  rcases stepHost_next h with ⟨-, rfl⟩ | ⟨act, rest, hp, ha⟩
  · exact .inr (.inr (.inr (.refl t)))
  · rcases hostAct_next ha with ⟨v, i, rfl, hx⟩ | ⟨p, rfl, ht⟩ | ⟨a, b, rfl, hlt, ht⟩ |
      ⟨hpl, hcap, hst, hmem, -, hep, hsrc, hdst, hcount⟩
    · exact .inl ⟨v, i, rest, hp, hx⟩
    · exact .inr (.inl ⟨p, rest, hp, ht⟩)
    · exact .inr (.inr (.inl ⟨a, b, rest, hp, hlt, ht⟩))
    · exact .inr (.inr (.inr ⟨hpl, hcap, hst, hmem, hep, hsrc, hdst, hcount⟩))

/-! ### The invariant -/

/-- The invariant does not speak of the actions still to happen. -/
theorem State.Inv.with_pending {s : State} (h : s.Inv) (rest : List HostAction) :
    ({ s with pending := rest } : State).Inv :=
  { h with }

/-- A command with a meaning keeps the invariant: after the lazy check `CAP` is legal and valid, and `STATUS` follows it. -/
theorem exec_inv {i : Instr} {s t : State} (h : s.Inv) (hx : exec i s = .next t) : t.Inv := by
  obtain ⟨ht, -⟩ := exec_next hx
  obtain ⟨hwf, hin⟩ := exec_memory hx
  generalize t.mem = m at ht hwf hin
  subst ht
  exact { h with
    cap_legal := lazyCap_legal h.cap_legal
    status_eq := (if_pos (lazyCap_valid s)).symm
    mem_wf := hwf h.mem_wf
    mem_within := hin h.mem_within }

/-- Reset keeps the invariant: the unchecked `CAP` asks `STATUS` = 0, and the content 0 fits every width. -/
theorem resetBlock_inv {s : State} (h : s.Inv) (p : Probe) : (resetBlock p s).Inv :=
  { h with
    cap_legal := rfl
    status_eq := by simp [capValid]
    src_fits := Nat.two_pow_pos _
    dst_fits := Nat.two_pow_pos _
    count_fits := Nat.two_pow_pos _ }

/-- A write of a byte inside the address space keeps the invariant. -/
theorem write_inv {s : State} (h : s.Inv) {a : Nat} (ha : a < 2 ^ s.platform.aw) (b : Byte) :
    ({ s with mem := Memory.write s.mem a b } : State).Inv :=
  { h with
    mem_wf := wf_write _ _ _ h.mem_wf
    mem_within := within_write _ _ _ ha h.mem_within }

theorem HeldByStep.inv {s t : State} (ht : HeldByStep s t) (h : s.Inv) : t.Inv where
  platform_wf := by rw [ht.platform_eq]; exact h.platform_wf
  cap_legal := by rw [ht.cap_eq]; exact h.cap_legal
  status_eq := by rw [ht.status_eq, ht.cap_eq]; exact h.status_eq
  mem_wf := by rw [ht.mem_eq]; exact h.mem_wf
  mem_within := by rw [ht.mem_eq, ht.platform_eq]; exact h.mem_within
  src_fits := by rw [ht.platform_eq]; exact ht.src_held.elim (· ▸ h.src_fits) id
  dst_fits := by rw [ht.platform_eq]; exact ht.dst_held.elim (· ▸ h.dst_fits) id
  count_fits := by rw [ht.platform_eq]; exact ht.count_held.elim (· ▸ h.count_fits) id

/-- Settles O39, by the four things a step can do, each of which keeps the invariant. -/
theorem everyStepKeepsTheInvariant : Obligations.EveryStepKeepsTheInvariant := by
  unfold Obligations.EveryStepKeepsTheInvariant
  intro s t hs h
  rcases step_next h with ⟨v, i, rest, -, hx⟩ | ⟨p, rest, -, rfl⟩ | ⟨a, b, rest, -, ha, rfl⟩ | ht
  · exact exec_inv (hs.with_pending rest) hx
  · exact resetBlock_inv (hs.with_pending rest) p
  · exact (write_inv hs ha b).with_pending rest
  · exact ht.inv hs

/-- Settles O40, field by field at the concrete state. -/
theorem resetMeetsTheInvariant : Obligations.ResetMeetsTheInvariant where
  platform_wf := by decide
  cap_legal := rfl
  status_eq := rfl
  mem_wf := rfl
  mem_within := rfl
  src_fits := Nat.two_pow_pos _
  dst_fits := Nat.two_pow_pos _
  count_fits := Nat.two_pow_pos _

/-! ### What only a reset, a command or a host write does -/

/-- Every step but a reset keeps `CAP.VALID` = 1: a command ends with it set, and nothing else touches `CAP` (70 R261). -/
theorem step_capValid {s t : State} (h : step s = .next t) (hs : capValid s.cap = true) :
    capValid t.cap = true ∨ ∃ p rest, s.pending = .reset p :: rest := by
  rcases step_next h with ⟨v, i, rest, -, hx⟩ | ⟨p, rest, hp, -⟩ | ⟨a, b, rest, -, -, rfl⟩ | hk
  · exact .inl (by rw [(exec_next hx).1]; exact lazyCap_valid _)
  · exact .inr ⟨p, rest, hp⟩
  · exact .inl hs
  · exact .inl (by rw [hk.cap_eq]; exact hs)

/-- Settles O14, from what every step but a reset does to `CAP.VALID`. -/
theorem onlyResetClearsValid : Obligations.OnlyResetClearsValid := by
  unfold Obligations.OnlyResetClearsValid
  intro s t h hs ht
  exact (step_capValid h hs).resolve_left fun hv => Bool.false_ne_true (ht.symm.trans hv)

/-- Settles O42: of the four things a step can do, a reset and a held block leave the memory. -/
theorem memoryChangesOnlyByWritesAndCommands : Obligations.MemoryChangesOnlyByWritesAndCommands := by
  unfold Obligations.MemoryChangesOnlyByWritesAndCommands
  intro s t h
  rcases step_next h with ⟨v, i, rest, hp, -⟩ | ⟨p, rest, -, rfl⟩ | ⟨a, b, rest, hp, -, -⟩ | hk
  · exact .inr (.inr ⟨v, rest, hp⟩)
  · exact .inl rfl
  · exact .inr (.inl ⟨a, b, rest, hp⟩)
  · exact .inl hk.mem_eq

/-- Every step but a reset stays with the free contents it found (93 U10, 60 R245). -/
theorem step_freeEpoch {s t : State} (h : step s = .next t) :
    t.freeEpoch = s.freeEpoch ∨ ∃ p rest, s.pending = .reset p :: rest := by
  rcases step_next h with ⟨v, i, rest, -, hx⟩ | ⟨p, rest, hp, -⟩ | ⟨a, b, rest, -, -, rfl⟩ | hk
  · exact .inl (by rw [(exec_next hx).1])
  · exact .inr ⟨p, rest, hp⟩
  · exact .inl rfl
  · exact .inl hk.freeEpoch_eq

/-! ### Register reads by number -/

theorem step_readReg_src {s : State} {rest : List HostAction} (h : s.pending = .readReg 1 :: rest) :
    step s = .next { s with
      pending := rest, hostData := some (operandContent s.src 1 s.platform.aw s.freeEpoch) } :=
  step_of_pending h

theorem step_readReg_dst {s : State} {rest : List HostAction} (h : s.pending = .readReg 2 :: rest) :
    step s = .next { s with
      pending := rest, hostData := some (operandContent s.dst 2 s.platform.aw s.freeEpoch) } :=
  step_of_pending h

theorem step_readReg_count {s : State} {rest : List HostAction} (h : s.pending = .readReg 3 :: rest) :
    step s = .next { s with
      pending := rest, hostData := some (operandContent s.count 3 s.platform.cw s.freeEpoch) } :=
  step_of_pending h

/-- An access to a reserved register number has no meaning (10_state R31). -/
theorem hostReadReg_reserved {n : Nat} (hn : 6 ≤ n) (s : State) :
    hostReadReg n s = .refused (.reservedRegister n) := by
  obtain ⟨m, rfl⟩ := Nat.exists_eq_add_of_le' hn
  rfl

theorem hostWriteReg_reserved {n : Nat} (hn : 6 ≤ n) (v : Nat) (s : State) :
    hostWriteReg n v s = .refused (.reservedRegister n) := by
  obtain ⟨m, rfl⟩ := Nat.exists_eq_add_of_le' hn
  rfl

/-- Settles O9, by the register number. -/
theorem hostReadOfRegisters : Obligations.HostReadOfRegisters := by
  unfold Obligations.HostReadOfRegisters
  intro s n rest hp
  refine ⟨?cmd, ?src, ?dst, ?count, ?status, ?cap, ?reserved⟩
  case cmd => rintro rfl; exact step_of_pending hp
  case src => rintro rfl hw; rw [step_readReg_src hp, operandContent_written hw]
  case dst => rintro rfl hw; rw [step_readReg_dst hp, operandContent_written hw]
  case count => rintro rfl hw; rw [step_readReg_count hp, operandContent_written hw]
  case status => rintro rfl; exact step_of_pending hp
  case cap => rintro rfl; exact step_of_pending hp
  case reserved => intro hn; exact (step_of_pending hp).trans (hostReadReg_reserved hn _)

/-- If a read of register number `n` returns the content of an operand register `reg` of `width` bits, then over all states of
one epoch in which it was never written it returns one value, which fits the width. -/
theorem read_neverWritten_is_held {n : Nat} {reg : State → OperandReg} {width : Platform → Nat}
    (hread : ∀ {u : State} {rest : List HostAction}, u.pending = .readReg n :: rest →
      step u = .next { u with
        pending := rest, hostData := some (operandContent (reg u) n (width u.platform) u.freeEpoch) })
    (s : State) :
    ∃ v, v < 2 ^ width s.platform ∧ ∀ (u : State) (rest : List HostAction), u.platform = s.platform →
      u.freeEpoch = s.freeEpoch → (reg u).written = false → u.pending = .readReg n :: rest →
      step u = .next { u with pending := rest, hostData := some v } := by
  refine ⟨operandContent .neverWritten n (width s.platform) s.freeEpoch,
    operandContent_free_lt neverWritten_written _ _ _, fun u rest hpl hep hw hp => ?_⟩
  rw [hread hp, operandContent_free hw neverWritten_written, hpl, hep]

/-- Settles O10: each operand register holds one free value through an epoch, and only a reset begins another. -/
theorem neverWrittenRegisterReadsFree : Obligations.NeverWrittenRegisterReadsFree := by
  unfold Obligations.NeverWrittenRegisterReadsFree
  refine ⟨fun s => ⟨?_, ?_, ?_⟩, fun s t h hne => (step_freeEpoch h).resolve_left hne⟩
  · exact read_neverWritten_is_held (width := Platform.aw) step_readReg_src s
  · exact read_neverWritten_is_held (width := Platform.aw) step_readReg_dst s
  · exact read_neverWritten_is_held (width := Platform.cw) step_readReg_count s

/-! ### Register writes by number -/

/-- Settles O8, by the register number, and for `CMD`, `SRC`, `DST`, `COUNT` by whether the value fits. -/
theorem hostWriteOfRegisters : Obligations.HostWriteOfRegisters := by
  unfold Obligations.HostWriteOfRegisters
  intro s n v rest hp
  rw [step_of_pending hp]
  refine ⟨?src, ?dst, ?count, ?readOnly, ?reserved, ?tooWide⟩
  case src => rintro rfl hv; exact if_pos hv
  case dst => rintro rfl hv; exact if_pos hv
  case count => rintro rfl hv; exact if_pos hv
  case readOnly => rintro (rfl | rfl) <;> rfl
  case reserved => intro hn; exact hostWriteReg_reserved hn _ _
  case tooWide =>
    rintro (⟨rfl, hv⟩ | ⟨rfl | rfl, hv⟩ | ⟨rfl, hv⟩) <;> exact if_neg (Nat.not_lt.mpr hv)

/-! ### `PROBE` and reset -/

/-- Settles O12, by the test of `driveProbe`: the check not made and the value another. -/
theorem probeIsStableUntilTheCheck : Obligations.ProbeIsStableUntilTheCheck := by
  unfold Obligations.ProbeIsStableUntilTheCheck
  intro s p rest hp
  rw [step_of_pending hp]
  constructor
  · intro hc hne
    exact if_pos ⟨hc, hne⟩
  · intro hc
    exact if_neg fun h => Bool.false_ne_true (h.1.symm.trans hc)

/-- Settles O13: the step is `resetBlock`, whose fields are as stated. -/
theorem resetPutsTheBlockInItsResetState : Obligations.ResetPutsTheBlockInItsResetState := by
  unfold Obligations.ResetPutsTheBlockInItsResetState
  intro s p rest hp
  refine ⟨resetBlock p { s with pending := rest }, step_of_pending hp, ?_⟩
  simp

/-- Settles O15, at the concrete state. -/
theorem resetRegisterValues : Obligations.ResetRegisterValues :=
  ⟨rfl, rfl, neverWritten_written, neverWritten_written, neverWritten_written⟩

end Sys2Proof.Machine
end

section
/-! PROOFS. The data memory as the host and the commands see it, byte by byte (20_memory R50 to R57, R64, R65): a host write
reads back, the two words of a double may be written in either order, and where the bytes of a unit lie. -/

namespace Sys2Proof.Machine

/-! ### Host accesses to memory -/

/-- A host write of a plain byte of the address space completes (20_memory R65). -/
theorem step_memWrite {s : State} {a : Nat} {b : Byte} {rest : List HostAction} (h : s.pending = .memWrite a b :: rest)
    (ha : a < 2 ^ s.platform.aw) (hp : s.platform.isPlain a = true) :
    step s = .next { s with pending := rest, mem := Memory.write s.mem a b } := by
  simp [step_of_pending h, hostAct, hostWriteMem, ha, hp]

/-- A host read of a plain byte of the address space completes (20_memory R65). -/
theorem step_memRead {s : State} {a : Nat} {rest : List HostAction} (h : s.pending = .memRead a :: rest)
    (ha : a < 2 ^ s.platform.aw) (hp : s.platform.isPlain a = true) :
    step s = .next { s with pending := rest, hostData := some (Memory.read s.mem a).toNat } := by
  simp [step_of_pending h, hostAct, hostReadMem, ha, hp]

/-- A host write outside the address space faults (20_memory R50, log entry 8). -/
theorem step_memWrite_noSuchAddress {s : State} {a : Nat} {b : Byte} {rest : List HostAction}
    (h : s.pending = .memWrite a b :: rest) (ha : 2 ^ s.platform.aw ≤ a) : step s = .fault (.noSuchAddress a) :=
  (step_of_pending h).trans (if_pos (Nat.not_lt.mpr ha))

/-- A run of two steps, each of which answers a next state. -/
theorem runsTo_two {s t u : State} (hs : step s = .next t) (ht : step t = .next u) : RunsTo 2 s u := by
  simp only [RunsTo, Host.Core.run, core, hs, ht]

/-- Settles O11: the write step, then the read step, whose answer is the byte written by read after write. -/
theorem hostMemoryByteReadsBack : Obligations.HostMemoryByteReadsBack := by
  unfold Obligations.HostMemoryByteReadsBack
  intro s a b rest hp
  refine ⟨fun ha hplain => ?_, step_memWrite_noSuchAddress hp⟩
  refine ⟨_, runsTo_two (step_memWrite hp ha hplain) (step_memRead rfl ha hplain), ?_, rfl, fun c hc => ?_⟩
  · simp only [read_write_self]
  · exact read_write_other s.mem b hc

/-! ### The two words of a double -/

/-- Two 4-byte writes with no byte in common may be made in either order. -/
theorem memWrite4_comm (o : ByteOrder) {m : Memory} {a a' : Nat} (v v' : Word) (hm : Memory.wf m = true)
    (hd : ∀ b, InRange a 4 b → ¬ InRange a' 4 b) :
    memWrite4 o (memWrite4 o m a v) a' v' = memWrite4 o (memWrite4 o m a' v') a v := by
  refine memory_ext (wf_memWrite4 _ _ _ _ (wf_memWrite4 _ _ _ _ hm)) (wf_memWrite4 _ _ _ _ (wf_memWrite4 _ _ _ _ hm))
    fun b => ?_
  by_cases ha : InRange a 4 b
  · rw [read_memWrite4_outside _ _ _ _ (hd b ha)]
    exact memWrite4_inside _ _ _ _ _ ha
  · rw [read_memWrite4_outside _ _ _ _ ha]
    by_cases ha' : InRange a' 4 b
    · exact memWrite4_inside _ _ _ _ _ ha'
    · rw [read_memWrite4_outside _ _ _ _ ha', read_memWrite4_outside _ _ _ _ ha', read_memWrite4_outside _ _ _ _ ha]

/-- The high and the low word of a double have no byte in common (20_memory R57). -/
theorem hiAddr_loAddr_disjoint (hhf : Bool) (a b : Nat) (h : InRange (hiAddr hhf a) 4 b) :
    ¬ InRange (loAddr hhf a) 4 b := by
  unfold InRange at *
  cases hhf
  · simp only [hiAddr, loAddr, Bool.false_eq_true, if_false] at *
    omega
  · simp only [hiAddr, loAddr, if_true] at *
    omega

/-- Settles O36: the two words have no byte in common. -/
theorem wordWriteOrderIsNotObservable : Obligations.WordWriteOrderIsNotObservable := by
  unfold Obligations.WordWriteOrderIsNotObservable
  intro o hhf m a hi lo hm
  exact memWrite4_comm o hi lo hm (hiAddr_loAddr_disjoint hhf a)

/-! ### The layout of a unit in memory -/

/-- The `n` bytes of memory from address `a` on, lowest address first. -/
def bytesAt (m : Memory) (a n : Nat) : List Byte :=
  (List.range n).map fun k => Memory.read m (a + k)

/-- The bytes of an `n`-byte unit of value `v`, in the order of their addresses (20_memory R54, R55). -/
def unitBytes {w : Nat} (o : ByteOrder) (n : Nat) (v : BitVec w) : List Byte :=
  (List.range n).map fun k => v.extractLsb' (8 * byteOffset o n k) 8

theorem bytesAt_add (m : Memory) (a n n' : Nat) : bytesAt m a (n + n') = bytesAt m a n ++ bytesAt m (a + n) n' := by
  simp [bytesAt, List.range_add, Nat.add_assoc]

/-- Two memories that read alike over a range hold the same bytes there. -/
theorem bytesAt_congr {m m' : Memory} {a n : Nat} (h : ∀ b, InRange a n b → Memory.read m b = Memory.read m' b) :
    bytesAt m a n = bytesAt m' a n :=
  List.map_congr_left fun k hk => h (a + k) ⟨by omega, by simpa using hk⟩

/-- The place of a byte and the byte at a place are found by the same arithmetic (20_memory R54, R55). -/
theorem byteOffset_byteOffset (o : ByteOrder) {n k : Nat} (h : k < n) : byteOffset o n (byteOffset o n k) = k := by
  cases o
  · rfl
  · simp only [byteOffset]
    omega

/-- A 2-byte unit lies in memory as its bytes in `BYTE_ORDER` (20_memory R55). -/
theorem bytesAt_memWrite2 (o : ByteOrder) (m : Memory) (a : Nat) (v : BitVec 16) :
    bytesAt (memWrite2 o m a v) a 2 = unitBytes o 2 v :=
  List.map_congr_left fun k hk => by
    have hk : k < 2 := List.mem_range.mp hk
    rw [← read_memWrite2_byte o m a v (byteOffset_lt o hk), byteOffset_byteOffset o hk]

/-- A 4-byte unit lies in memory as its bytes in `BYTE_ORDER` (20_memory R55). -/
theorem bytesAt_memWrite4 (o : ByteOrder) (m : Memory) (a : Nat) (v : BitVec 32) :
    bytesAt (memWrite4 o m a v) a 4 = unitBytes o 4 v :=
  List.map_congr_left fun k hk => by
    have hk : k < 4 := List.mem_range.mp hk
    rw [← read_memWrite4_byte o m a v (byteOffset_lt o hk), byteOffset_byteOffset o hk]

/-- A 4-byte write leaves the bytes of a range apart from it. -/
theorem bytesAt_memWrite4_outside (o : ByteOrder) (m : Memory) {a a' n : Nat} (v : BitVec 32)
    (hd : ∀ b, InRange a n b → ¬ InRange a' 4 b) : bytesAt (memWrite4 o m a' v) a n = bytesAt m a n :=
  bytesAt_congr fun b hb => read_memWrite4_outside _ _ _ _ (hd b hb)

/-- A double lies in memory as its two words, the high word first exactly when `CAP.HHF` = 1 (20_memory R57). -/
theorem bytesAt_double (o : ByteOrder) (hhf : Bool) (m : Memory) (a : Nat) (hi lo : Word) :
    bytesAt (memWrite4 o (memWrite4 o m (hiAddr hhf a) hi) (loAddr hhf a) lo) a 8 =
      if hhf then unitBytes o 4 hi ++ unitBytes o 4 lo else unitBytes o 4 lo ++ unitBytes o 4 hi := by
  have hhi : bytesAt (memWrite4 o (memWrite4 o m (hiAddr hhf a) hi) (loAddr hhf a) lo) (hiAddr hhf a) 4 =
      unitBytes o 4 hi := by
    rw [bytesAt_memWrite4_outside _ _ _ (hiAddr_loAddr_disjoint hhf a), bytesAt_memWrite4]
  have hlo := bytesAt_memWrite4 o (memWrite4 o m (hiAddr hhf a) hi) (loAddr hhf a) lo
  rw [bytesAt_add _ a 4 4]
  cases hhf
  · exact congrArg₂ (· ++ ·) hlo hhi
  · exact congrArg₂ (· ++ ·) hhi hlo

/-- Settles O37: each list is the bytes of its unit, in the byte order and the word order. -/
theorem layoutOfOnesInMemory : Obligations.LayoutOfOnesInMemory := by
  unfold Obligations.LayoutOfOnesInMemory
  intro m a
  refine ⟨?single_little, ?single_big, ?half_little, ?half_big, fun o hhf => ?double⟩
  case single_little => exact (bytesAt_memWrite4 .little m a _).trans (by decide)
  case single_big => exact (bytesAt_memWrite4 .big m a _).trans (by decide)
  case half_little => exact (bytesAt_memWrite2 .little m a _).trans (by decide)
  case half_big => exact (bytesAt_memWrite2 .big m a _).trans (by decide)
  case double =>
    refine (bytesAt_double o hhf m a _ _).trans ?_
    cases o <;> cases hhf <;> decide

end Sys2Proof.Machine
end

section
/-! PROOFS. The buffers of a `CVT` command in memory (20_memory R51, R58 to R61): the command without a meaning, the frame of
its stores, and the command issued twice. -/

namespace Sys2Proof.Machine

/-! ### The forms of a `CVT` command (40 R100) -/

theorem convertCommand_unsupported (f : ElementStep) (k : Cvt) (dp sp : Bool) {s : State}
    (hi : capIeee (lazyCap s) = false) : convertCommand f k dp sp s = .next (failUnsupported (lazyCheck s)) :=
  if_pos hi

/-- An absent buffer or N = 0 ends the command (40 R104). -/
theorem convertCommand_noOperation (f : ElementStep) (k : Cvt) {dp sp : Bool} {s : State}
    (hi : capIeee (lazyCap s) = true)
    (h : sp = false ∨ dp = false ∨ s.count.written = true ∧ s.count.value = 0) :
    convertCommand f k dp sp s = .next (finishOk (lazyCheck s)) := by
  rcases h with rfl | rfl | ⟨hw, hz⟩
  · simp [convertCommand, convertSupported, hi]
  · simp [convertCommand, convertSupported, hi]
  · simp [convertCommand, convertSupported, hi, hw, hz]

/-- A command that would reach its element loop with a precondition false is refused (20_memory R61). -/
theorem convertCommand_broken (f : ElementStep) {k : Cvt} {s : State} {p : Precondition}
    (hi : capIeee (lazyCap s) = true) (hc : s.count.written = true) (hs : s.src.written = true)
    (hd : s.dst.written = true) (hn : s.count.value ≠ 0)
    (hb : brokenPrecondition s.platform k s.src.value s.dst.value s.count.value = some p) :
    convertCommand f k true true s = .refused (.preconditionFalse p) := by
  simp [convertCommand, convertSupported, convertBuffers, hi, hc, hs, hd, hn, hb]

/-- On a supported host a command with a meaning has an absent buffer, or a `COUNT` that was written (40 R101). -/
theorem convertCommand_next_count_written {f : ElementStep} {k : Cvt} {dp sp : Bool} {s t : State}
    (hi : capIeee (lazyCap s) = true) (h : convertCommand f k dp sp s = .next t) :
    sp = false ∨ dp = false ∨ s.count.written = true := by
  by_contra! hread
  obtain ⟨hsp, hdp, hw⟩ := hread
  rw [ne_eq, Bool.not_eq_true] at hw
  simp [convertCommand, convertSupported, hi, hsp, hdp, hw] at h

/-- Settles O23: a command that is not ready, though all its registers were written, has a broken precondition. -/
theorem brokenPreconditionHasNoMeaning : Obligations.BrokenPreconditionHasNoMeaning := by
  unfold Obligations.BrokenPreconditionHasNoMeaning
  intro k s hi hc hs hd hn hready
  obtain ⟨f, -, hexec⟩ := exec_cvt k
  obtain ⟨p, hp⟩ := Option.ne_none_iff_exists'.mp fun hb => hready ((cvtReady_iff k s).mpr ⟨hi, hs, hd, hc, hn, hb⟩)
  exact ⟨p, (hexec true true s).trans (convertCommand_broken f hi hc hs hd hn.ne' hp)⟩

/-! ### The frame of the stores -/

/-- A `CVT` command with a meaning leaves the memory, or ran its element loop. -/
theorem convertCommand_next_mem {f : ElementStep} {k : Cvt} {dp sp : Bool} {s t : State}
    (h : convertCommand f k dp sp s = .next t) :
    t.mem = s.mem ∨ (sp = true ∧ dp = true ∧ CvtReady k s ∧
      t.mem = convertFrom f s.platform (capHhf (lazyCap s)) k s.src.value s.dst.value s.count.value 0 s.mem) := by
  rcases convertCommand_next h with ⟨-, rfl⟩ | ⟨-, -, rfl⟩ | ⟨-, hsp, hdp, hr, rfl⟩
  · exact .inl rfl
  · exact .inl rfl
  · exact .inr ⟨hsp, hdp, hr, rfl⟩

/-- A command that is ready is none of the forms that convert nothing (40 R103, R104). -/
theorem CvtReady.not_noOperation {k : Cvt} {s : State} (h : CvtReady k s) {dp sp : Bool} (hsp : sp = true)
    (hdp : dp = true) : ¬ (capIeee (lazyCap s) = false ∨ sp = false ∨ dp = false ∨ s.count.value = 0) := by
  simp [h.supported, hsp, hdp, h.count_pos.ne']

/-- Settles O28, by whether the command ran its element loop, which stores to its elements only. -/
theorem conversionStoresOnlyItsElements : Obligations.ConversionStoresOnlyItsElements := by
  unfold Obligations.ConversionStoresOnlyItsElements
  intro k dp sp s t h
  obtain ⟨f, hf, hexec⟩ := exec_cvt k
  rw [hexec] at h
  rcases convertCommand_next_mem h with hm | ⟨hsp, hdp, hr, hm⟩
  · rw [hm]
    exact ⟨fun _ _ => rfl, fun _ _ => rfl⟩
  · refine ⟨fun a ha => ?_, fun hno => absurd hno (hr.not_noOperation hsp hdp)⟩
    rw [hm]
    exact convertFrom_outside hf _ _ _ _ _ _ _ fun i hi => by rw [Nat.zero_add]; exact ha i hi

/-! ### The same command twice -/

/-- The element loop writes nothing outside the destination buffer. -/
theorem convertFrom_outside_buffer {f : ElementStep} {k : Cvt} (hf : StepFrame f k) (p : Platform) (hhf : Bool)
    {src dst n : Nat} (m : Memory) {b : Nat} (hb : ¬ InRange dst (dstSize k * n) b) :
    Memory.read (convertFrom f p hhf k src dst n 0 m) b = Memory.read m b := by
  refine convertFrom_outside hf _ _ _ _ _ _ _ fun i hi hin => hb ?_
  rw [Nat.zero_add] at hin
  obtain ⟨hl, hu⟩ := hin
  exact ⟨(element_base_le dst (dstSize k) i).trans hl, hu.trans_le (element_end_le hi)⟩

/-- The element loop run again over its own result, the source and the destination disjoint, changes no byte: it finds the
source bytes it found before. -/
theorem convertFrom_twice {f : ElementStep} {k : Cvt} (hf : StepFrame f k) (p : Platform) (hhf : Bool) {src dst n : Nat}
    (m : Memory) (hd : ∀ a, InRange src (srcSize k * n) a → ¬ InRange dst (dstSize k * n) a) (b : Nat) :
    Memory.read (convertFrom f p hhf k src dst n 0 (convertFrom f p hhf k src dst n 0 m)) b =
      Memory.read (convertFrom f p hhf k src dst n 0 m) b := by
  by_cases hb : ∃ i, i < n ∧ InRange (elementAddr dst (dstSize k) i) (dstSize k) b
  · obtain ⟨i, hi, hb⟩ := hb
    rw [convertFrom_element hf p hhf _ hd hi hb, convertFrom_element hf p hhf m hd hi hb]
    refine hf.inside _ _ _ _ _ _ (fun a ha => convertFrom_outside_buffer hf p hhf m (hd a ?_)) b hb
    exact ⟨(element_base_le src (srcSize k) i).trans ha.1, ha.2.trans_le (element_end_le hi)⟩
  · exact convertFrom_outside hf _ _ _ _ _ _ _ fun i hi hin => hb ⟨i, hi, by rwa [Nat.zero_add] at hin⟩

/-- `CAP` as the lazy check left it is what a second lazy check leaves (40 R102). -/
theorem lazyCap_of_cap_eq {s t : State} (h : t.cap = lazyCap s) : lazyCap t = lazyCap s := by
  rw [lazyCap, h, if_pos (lazyCap_valid s)]

/-- A `CVT` command with a meaning has one again in the state it leaves, and leaves the same memory. -/
theorem convertCommand_twice {f : ElementStep} {k : Cvt} (hf : StepFrame f k) {dp sp : Bool} {s t : State}
    (h : convertCommand f k dp sp s = .next t) :
    ∃ u, convertCommand f k dp sp t = .next u ∧ ∀ a, Memory.read u.mem a = Memory.read t.mem a := by
  rcases convertCommand_next h with ⟨hi, rfl⟩ | ⟨hi, hno, rfl⟩ | ⟨hi, rfl, rfl, hr, rfl⟩
  · have hcap : lazyCap (failUnsupported (lazyCheck s)) = lazyCap s := lazyCap_of_cap_eq rfl
    exact ⟨_, convertCommand_unsupported f k dp sp (by rw [hcap, hi]), fun _ => rfl⟩
  · have hcap : lazyCap (finishOk (lazyCheck s)) = lazyCap s := lazyCap_of_cap_eq rfl
    have hread := convertCommand_next_count_written hi h
    have hno' : sp = false ∨ dp = false ∨ s.count.written = true ∧ s.count.value = 0 := by tauto
    exact ⟨_, convertCommand_noOperation f k (by rw [hcap, hi]) hno', fun _ => rfl⟩
  · have hcap (m : Memory) : lazyCap (finishOk { lazyCheck s with mem := m }) = lazyCap s := lazyCap_of_cap_eq rfl
    have hready (m : Memory) : CvtReady k (finishOk { lazyCheck s with mem := m }) :=
      { hr with supported := by rw [hcap, hi] }
    refine ⟨_, convertCommand_ready f (hready _), fun a => ?_⟩
    rw [hcap]
    exact convertFrom_twice hf s.platform (capHhf (lazyCap s)) s.mem hr.buffers_disjoint a

/-- Settles O33: every `CVT` command is the skeleton of 40 R100, which repeats itself. -/
theorem conversionTwiceIsOnce : Obligations.ConversionTwiceIsOnce := by
  unfold Obligations.ConversionTwiceIsOnce
  intro k dp sp s t h
  obtain ⟨f, hf, hexec⟩ := exec_cvt k
  simp only [hexec] at h ⊢
  exact convertCommand_twice hf h

end Sys2Proof.Machine
end

section
/-! PROOFS. The command byte (30_encoding R81, R82, R85, R86): its fields, that decoder and encoder are inverse to each other,
the commands by match and mask, and how many bytes are reserved. -/

namespace Sys2Proof

/-! ### The fields of a command byte -/

@[simp] theorem commandByte_rsv (dp sp : Bool) (opc : BitVec 3) : (commandByte dp sp opc).extractLsb' 5 3 = 0#3 := by
  decide +revert

@[simp] theorem commandByte_opc (dp sp : Bool) (opc : BitVec 3) : (commandByte dp sp opc).extractLsb' 0 3 = opc := by
  decide +revert

@[simp] theorem commandByte_dp (dp sp : Bool) (opc : BitVec 3) : (commandByte dp sp opc)[4] = dp := by
  decide +revert

@[simp] theorem commandByte_sp (dp sp : Bool) (opc : BitVec 3) : (commandByte dp sp opc)[3] = sp := by
  decide +revert

/-- A byte is its four fields side by side (30_encoding R81). -/
theorem byte_eq_fields (b : Byte) :
    b.extractLsb' 5 3 ++ BitVec.ofBool (b.getLsbD 4) ++ BitVec.ofBool (b.getLsbD 3) ++ b.extractLsb' 0 3 = b := by
  have hbit (i : Nat) : BitVec.ofBool (b.getLsbD i) = b.extractLsb' i 1 := by
    ext j hj
    obtain rfl := Nat.lt_one_iff.mp hj
    simp
  rw [hbit, hbit, BitVec.extractLsb'_append_extractLsb'_eq_extractLsb' (show 5 = 4 + 1 from rfl),
    BitVec.extractLsb'_append_extractLsb'_eq_extractLsb' (show 4 = 3 + 1 from rfl),
    BitVec.extractLsb'_append_extractLsb'_eq_extractLsb' (show 3 = 0 + 3 from rfl), BitVec.extractLsb'_eq_self]

/-- A byte with `RSV` = 0 is the command byte of its other fields. -/
theorem commandByte_fields {b : Byte} {opc : BitVec 3} (hrsv : b.extractLsb' 5 3 = 0#3) (hopc : b.extractLsb' 0 3 = opc) :
    commandByte (b.getLsbD 4) (b.getLsbD 3) opc = b := by
  rw [commandByte, ← hrsv, ← hopc, byte_eq_fields]

theorem commandByte_and_mask (dp sp : Bool) (opc : BitVec 3) :
    commandByte dp sp opc &&& 0xE7#8 = commandByte false false opc := by
  decide +revert

/-- The mask `0xE7` leaves out the presence bits only, so a match under it fixes the byte up to them (30_encoding R85). -/
theorem commandByte_eq_iff_and_mask (b : Byte) (opc : BitVec 3) :
    commandByte (b.getLsbD 4) (b.getLsbD 3) opc = b ↔ b &&& 0xE7#8 = commandByte false false opc := by
  constructor
  · intro h
    have hmask := commandByte_and_mask (b.getLsbD 4) (b.getLsbD 3) opc
    rwa [h] at hmask
  · intro h
    have hrsv := congrArg (BitVec.extractLsb' 5 3) h
    have hopc := congrArg (BitVec.extractLsb' 0 3) h
    simp only [BitVec.extractLsb'_and, commandByte_rsv, commandByte_opc] at hrsv hopc
    exact commandByte_fields ((BitVec.and_allOnes).symm.trans hrsv) ((BitVec.and_allOnes).symm.trans hopc)

/-! ### Decoder and encoder -/

/-- `OPC` of a conversion (30_encoding R82). -/
def Cvt.opc : Cvt → BitVec 3
  | .s2h => 0b100#3
  | .d2h => 0b101#3
  | .h2s => 0b110#3
  | .h2d => 0b111#3

theorem encode_instr (k : Cvt) (dp sp : Bool) : encode (k.instr dp sp) = commandByte dp sp k.opc := by
  cases k <;> rfl

theorem decode_reservedBitsSet {b : Byte} (h : b.extractLsb' 5 3 ≠ 0#3) : decode b = .error .reservedBitsSet :=
  if_pos h

/-- Settles O1, by the command: the decoder finds the fields that the encoder wrote. -/
theorem decodeOfEncodeIsTheCommand : Obligations.DecodeOfEncodeIsTheCommand := by
  unfold Obligations.DecodeOfEncodeIsTheCommand
  intro i
  cases i with
  | capchk => rfl
  | cvtS2H dp sp => simp [encode, decode]
  | cvtD2H dp sp => simp [encode, decode]
  | cvtH2S dp sp => simp [encode, decode]
  | cvtH2D dp sp => simp [encode, decode]

/-- Settles O2, by the branches of the decoder: each fixes `RSV` and `OPC`, and `CAPCHK` both presence bits too. -/
theorem decodedByteIsEncodedByte : Obligations.DecodedByteIsEncodedByte := by
  unfold Obligations.DecodedByteIsEncodedByte
  intro b i h
  have hrsv : b.extractLsb' 5 3 = 0#3 := by
    by_contra hne
    rw [decode_reservedBitsSet hne] at h
    cases h
  rw [decode, if_neg (not_not.mpr hrsv)] at h
  have hbyte {opc : BitVec 3} (hopc : (b.extractLsb' 0 3).toNat = opc.toNat) :=
    commandByte_fields hrsv (BitVec.eq_of_toNat_eq hopc)
  split at h
  case h_1 hopc =>
    split at h
    next hnone =>
      cases h
      have hb := hbyte (opc := 0#3) hopc
      rwa [hnone.1, hnone.2] at hb
    next => cases h
  case h_2 hopc => cases h; exact hbyte hopc
  case h_3 hopc => cases h; exact hbyte hopc
  case h_4 hopc => cases h; exact hbyte hopc
  case h_5 hopc => cases h; exact hbyte hopc
  case h_6 => cases h

theorem decode_eq_ok_iff {b : Byte} {i : Instr} : decode b = .ok i ↔ encode i = b :=
  ⟨decodedByteIsEncodedByte b i, fun h => h ▸ decodeOfEncodeIsTheCommand i⟩

/-- Settles O6: each byte is the encoding of the command it stands for. -/
theorem exampleBytesDecode : Obligations.ExampleBytesDecode := by
  unfold Obligations.ExampleBytesDecode
  simp only [decode_eq_ok_iff]
  decide

/-! ### Match and mask -/

/-- A byte is read as a conversion with its own presence bits exactly when it matches the conversion's byte under `0xE7`. -/
theorem decode_eq_instr_iff (b : Byte) (k : Cvt) :
    decode b = .ok (k.instr (b.getLsbD 4) (b.getLsbD 3)) ↔ b &&& 0xE7#8 = commandByte false false k.opc := by
  rw [decode_eq_ok_iff, encode_instr, commandByte_eq_iff_and_mask]

/-- The presence bits of a decoded conversion are bits 4 and 3 of the byte, whatever the conversion (30_encoding R83). -/
theorem decode_presence {b : Byte} {i : Instr} (h : decode b = .ok i) :
    i = .capchk ∨ ∃ k : Cvt, i = k.instr (b.getLsbD 4) (b.getLsbD 3) := by
  rcases Machine.instr_cases i with rfl | ⟨k, dp, sp, rfl⟩
  · exact .inl rfl
  · have hb := decode_eq_ok_iff.mp h
    rw [encode_instr] at hb
    subst hb
    exact .inr ⟨k, by simp⟩

/-- The 224 bytes from `0x20` up have `RSV` not 0 (30_encoding R86), so the commands are among the other 32. -/
theorem decode_high_not_ok {v : Nat} (hv : v < 224) : (decode (BitVec.ofNat 8 (32 + v))).isOk = false := by
  have hrsv : (BitVec.ofNat 8 (32 + v)).extractLsb' 5 3 ≠ 0#3 := by
    rw [Ne, ← BitVec.toNat_inj, BitVec.extractLsb'_toNat, Nat.shiftRight_eq_div_pow, BitVec.toNat_ofNat,
      BitVec.toNat_ofNat]
    omega
  rw [decode_reservedBitsSet hrsv]
  rfl

/-- 17 bytes are commands (30_encoding R85). -/
theorem countP_decode_ok : (List.range 256).countP (fun v => (decode (BitVec.ofNat 8 v)).isOk) = 17 := by
  rw [show 256 = 32 + 224 from rfl, List.range_add, List.countP_append]
  have hlow : (List.range 32).countP (fun v => (decode (BitVec.ofNat 8 v)).isOk) = 17 := by decide
  have hhigh : ((List.range 224).map (32 + ·)).countP (fun v => (decode (BitVec.ofNat 8 v)).isOk) = 0 := by
    rw [List.countP_eq_zero]
    intro a ha
    obtain ⟨v, hv, rfl⟩ := List.mem_map.mp ha
    rw [decode_high_not_ok (List.mem_range.mp hv)]
    exact Bool.false_ne_true
  rw [hlow, hhigh]

/-- Settles O3: decoding is the inverse of encoding, and the mask `0xE7` leaves out the presence bits only. -/
theorem commandsByMatchAndMask : Obligations.CommandsByMatchAndMask := by
  unfold Obligations.CommandsByMatchAndMask
  refine ⟨fun b => ⟨?_, decode_eq_instr_iff b .s2h, decode_eq_instr_iff b .d2h, decode_eq_instr_iff b .h2s,
    decode_eq_instr_iff b .h2d, fun i => decode_presence⟩, countP_decode_ok⟩
  rw [decode_eq_ok_iff, show (0xFF#8 : Byte) = BitVec.allOnes 8 from rfl, BitVec.and_allOnes]
  exact eq_comm

/-- The other 239 bytes are reserved (30_encoding R86). -/
theorem countP_decode_reserved : (List.range 256).countP (fun v => !(decode (BitVec.ofNat 8 v)).isOk) = 239 := by
  have htotal := List.length_eq_countP_add_countP (l := List.range 256) (fun v => (decode (BitVec.ofNat 8 v)).isOk)
  simp only [countP_decode_ok, List.length_range, Bool.not_eq_true, Bool.decide_eq_false] at htotal
  omega

end Sys2Proof
end

section
/-! PROOFS. The issue of a command (30_encoding R80, R86, R89): a step at a write to `CMD` runs the command of the byte or, for
a reserved byte, has no meaning; an assembler line is its register writes and then its command. -/

namespace Sys2Proof.Machine

/-! ### A write to `CMD` -/

theorem step_writeCmd {s : State} {v : Nat} {rest : List HostAction} (hv : v < 2 ^ 8)
    (h : s.pending = .writeReg 0 v :: rest) : step s = issue (BitVec.ofNat 8 v) { s with pending := rest } :=
  (step_of_pending h).trans (if_pos hv)

theorem issue_of_decode {b : Byte} {i : Instr} (h : decode b = .ok i) (s : State) : issue b s = exec i s := by
  rw [issue, h]

theorem issue_reserved {b : Byte} {e : DecodeError} (h : decode b = .error e) (s : State) :
    issue b s = .refused (.reservedCommand b) := by
  rw [issue, h]

/-- A byte with `RSV` = 0 and `OPC` in 1..3 is reserved (30_encoding R86). -/
theorem decode_reservedOpcode {b : Byte} (hrsv : b.extractLsb' 5 3 = 0#3)
    (hopc : b.extractLsb' 0 3 = 1#3 ∨ b.extractLsb' 0 3 = 2#3 ∨ b.extractLsb' 0 3 = 3#3) :
    decode b = .error .reservedOpcode := by
  rw [decode, if_neg (not_not.mpr hrsv)]
  rcases hopc with h | h | h <;> rw [h] <;> rfl

/-- Settles O4, by the three groups of reserved bytes. -/
theorem reservedByteHasNoMeaning : Obligations.ReservedByteHasNoMeaning := by
  unfold Obligations.ReservedByteHasNoMeaning
  refine ⟨fun s v rest hv hp hres => ?_, countP_decode_reserved⟩
  rw [step_writeCmd hv hp]
  rcases hres with hrsv | ⟨hrsv, hopc⟩ | hpresence
  · exact issue_reserved (decode_reservedBitsSet hrsv) _
  · exact issue_reserved (decode_reservedOpcode hrsv hopc) _
  · rcases hpresence with rfl | rfl | rfl <;> exact issue_reserved (e := .capchkWithPresence) rfl _

/-- A table word that is read as a command is a byte that decodes to it (30_encoding R88). -/
theorem decodeTableWord_eq_some {nbits w : Nat} {i : Instr} (h : decodeTableWord nbits w = some i) :
    commandValue nbits w < 2 ^ 8 ∧ decode (BitVec.ofNat 8 (commandValue nbits w)) = .ok i := by
  unfold decodeTableWord at h
  split at h
  next hv =>
    split at h
    next j hj => cases h; exact ⟨hv, hj⟩
    next => cases h
  next => cases h

/-- Settles O5: both are a step at a write of the byte to `CMD`. -/
theorem stepRunsTheDecodedCommand : Obligations.StepRunsTheDecodedCommand := by
  unfold Obligations.StepRunsTheDecodedCommand
  constructor
  · intro s v rest i hv hp hi
    rw [step_writeCmd hv hp, issue_of_decode hi]
  · intro s w i h
    obtain ⟨hv, hi⟩ := decodeTableWord_eq_some h
    exact (step_writeCmd hv (queueCommand_pending _ s)).trans (issue_of_decode hi s)

/-! ### Assembler lines -/

/-- A write of an encoded command to `CMD` runs that command. -/
theorem step_writeCmd_encode {s : State} {i : Instr} {rest : List HostAction}
    (h : s.pending = .writeReg 0 (encode i).toNat :: rest) : step s = exec i { s with pending := rest } := by
  rw [step_writeCmd (encode i).isLt h, BitVec.ofNat_toNat, BitVec.setWidth_eq,
    issue_of_decode (decodeOfEncodeIsTheCommand i)]

/-- A run of one more step is a step that answers a next state, and a run from there. -/
theorem runsTo_succ {n : Nat} {s u : State} : RunsTo (n + 1) s u ↔ ∃ t, step s = .next t ∧ RunsTo n t u := by
  simp only [RunsTo, Host.Core.run, core]
  cases step s <;> simp

theorem runsTo_one {s t : State} (h : step s = .next t) : RunsTo 1 s t :=
  runsTo_succ.mpr ⟨t, h, rfl⟩

/-- A run after a run is a run of the steps of both. -/
theorem RunsTo.trans {m n : Nat} {s t u : State} (hst : RunsTo m s t) (htu : RunsTo n t u) : RunsTo (m + n) s u := by
  induction m generalizing s with
  | zero => cases hst; rwa [Nat.zero_add]
  | succ m ih =>
    obtain ⟨s', hs, hrun⟩ := runsTo_succ.mp hst
    rw [Nat.succ_add]
    exact runsTo_succ.mpr ⟨s', hs, ih hrun⟩

/-- The source part of a line: the write of `SRC` in one step, and no step for an absent buffer. -/
theorem runsTo_addressWrite_src {s : State} {src : Option Nat} {rest : List HostAction}
    (hfit : ∀ a, src = some a → a < 2 ^ s.platform.aw) (h : s.pending = addressWrite 1 src ++ rest) :
    RunsTo src.toList.length s { s with pending := rest, src := src.elim s.src (fun a => ⟨a, true⟩) } := by
  cases src with
  | none => subst h; rfl
  | some a => exact runsTo_one ((step_of_pending h).trans (if_pos (hfit a rfl)))

/-- The destination part of a line: the write of `DST` in one step, and no step for an absent buffer. -/
theorem runsTo_addressWrite_dst {s : State} {dst : Option Nat} {rest : List HostAction}
    (hfit : ∀ a, dst = some a → a < 2 ^ s.platform.aw) (h : s.pending = addressWrite 2 dst ++ rest) :
    RunsTo dst.toList.length s { s with pending := rest, dst := dst.elim s.dst (fun a => ⟨a, true⟩) } := by
  cases dst with
  | none => subst h; rfl
  | some a => exact runsTo_one ((step_of_pending h).trans (if_pos (hfit a rfl)))

theorem runsTo_writeCount {s : State} {n : Nat} {rest : List HostAction} (hn : n < 2 ^ s.platform.cw)
    (h : s.pending = .writeReg 3 n :: rest) : RunsTo 1 s { s with pending := rest, count := ⟨n, true⟩ } :=
  runsTo_one ((step_of_pending h).trans (if_pos hn))

/-- Settles O7: the parts of the line run one after the other, and its last action is the write of the command's byte. -/
theorem assemblerLineRunsItsCommand : Obligations.AssemblerLineRunsItsCommand := by
  unfold Obligations.AssemblerLineRunsItsCommand
  refine ⟨fun s rest hp => step_writeCmd_encode hp, fun s k dst src n rest hsrc hdst hn hp => ?_⟩
  simp only [assemble, List.append_assoc] at hp
  have hrun := ((runsTo_addressWrite_src hsrc hp).trans (runsTo_addressWrite_dst hdst rfl)).trans
    (runsTo_writeCount hn rfl)
  exact ⟨_, hrun, rfl, step_writeCmd_encode rfl⟩

end Sys2Proof.Machine
end

section
/-! PROOFS. The lazy check and the ends of a command (40 R100 to R108): `capcheck`, `CAPCHK`, the unsupported host, the commands
that convert nothing, the operand registers a command reads, and what no command changes. -/

namespace Sys2Proof.Machine

/-! ### The capability check -/

/-- Settles O16, by the order of the tests in `capcheck`. -/
theorem capcheckTable : Obligations.CapcheckTable := by
  unfold Obligations.CapcheckTable
  intro w0 w1
  refine ⟨?_, ?_, fun hhigh hlow => ?_⟩
  · rintro ⟨rfl, rfl⟩
    rfl
  · rintro ⟨rfl, rfl⟩
    rfl
  · rw [capcheck, if_neg hhigh, if_neg hlow]
    rfl

/-- A valid `CAP` is cached: the lazy check leaves it (40 R102). -/
theorem lazyCap_of_valid {s : State} (h : s.cap.getLsbD 0 = true) : lazyCap s = s.cap :=
  if_pos h

/-- An unchecked `CAP` is evaluated from the probe (40 R102). -/
theorem lazyCap_of_not_valid {s : State} (h : s.cap.getLsbD 0 = false) : lazyCap s = capcheck s.probe :=
  if_neg (ne_true_of_eq_false h)

theorem exec_next_cap {i : Instr} {s t : State} (h : exec i s = .next t) : t.cap = lazyCap s := by
  rw [(exec_next h).1]

/-- Settles O17: a command leaves the `CAP` of the lazy check, which has two cases. -/
theorem lazyCheckIsMadeOnce : Obligations.LazyCheckIsMadeOnce := by
  unfold Obligations.LazyCheckIsMadeOnce
  intro i s t h
  rw [exec_next_cap h]
  exact ⟨lazyCap_of_not_valid, lazyCap_of_valid⟩

/-- Settles O18: `CAPCHK` is the lazy check and the status that follows from it. -/
theorem capchkCompletes : Obligations.CapchkCompletes := by
  unfold Obligations.CapchkCompletes
  exact fun s => ⟨lazyCap s, rfl, rfl⟩

/-! ### Commands that convert nothing -/

/-- Settles O19: `CAPCHK` reports `CAP.IEEE`, and a `CVT` command ends at step 3 of 40 R100. -/
theorem unsupportedHostFailsEveryCommand : Obligations.UnsupportedHostFailsEveryCommand := by
  unfold Obligations.UnsupportedHostFailsEveryCommand
  intro i s hi
  rcases instr_cases i with rfl | ⟨k, dp, sp, rfl⟩
  · simp [exec, execCapchk, lazyCheck, statusOf, hi]
  · obtain ⟨f, -, hexec⟩ := exec_cvt k
    exact (hexec dp sp s).trans (convertCommand_unsupported f k dp sp hi)

/-- Settles O21: every `CVT` command is the skeleton of 40 R100, which ends at step 5 or 6. -/
theorem noOperationSucceeds : Obligations.NoOperationSucceeds := by
  unfold Obligations.NoOperationSucceeds
  intro k dp sp s hi hno
  obtain ⟨f, -, hexec⟩ := exec_cvt k
  exact (hexec dp sp s).trans (convertCommand_noOperation f k hi hno)

/-- `CAPCHK`, a failing command and a no-operation leave the memory, an unwritten `COUNT` of content 0 included. -/
theorem exec_next_mem_of_converts_nothing {i : Instr} {s t : State} (h : exec i s = .next t)
    (hno : i = .capchk ∨ capIeee (lazyCap s) = false ∨
      ∃ k : Cvt, ∃ dp sp, i = k.instr dp sp ∧ (sp = false ∨ dp = false ∨ s.count.value = 0)) :
    t.mem = s.mem := by
  rcases hno with rfl | hi | ⟨k, dp, sp, rfl, hno⟩
  · cases h
    rfl
  · cases (unsupportedHostFailsEveryCommand i s hi).symm.trans h
    rfl
  · obtain ⟨f, -, hexec⟩ := exec_cvt k
    rw [hexec] at h
    rcases convertCommand_next_mem h with hm | ⟨hsp, hdp, hready, -⟩
    · exact hm
    · exact absurd (.inr hno) (hready.not_noOperation hsp hdp)

/-- Settles O29: a command changes `CAP`, `STATUS` and memory only, and memory only where it converts. -/
theorem noCommandChangesItsOperands : Obligations.NoCommandChangesItsOperands := by
  unfold Obligations.NoCommandChangesItsOperands
  intro i s t h
  have hmem := exec_next_mem_of_converts_nothing h
  have hcap : s.cap.getLsbD 0 = true → t.cap = s.cap := (lazyCheckIsMadeOnce i s t h).2
  obtain ⟨ht, -⟩ := exec_next h
  generalize t.mem = m at ht hmem
  subst ht
  exact ⟨rfl, rfl, rfl, rfl, rfl, rfl, rfl, rfl, hcap, hmem⟩

/-! ### The operand registers a command reads (40 R101) -/

theorem convertCommand_count_unwritten (f : ElementStep) (k : Cvt) {s : State} (hi : capIeee (lazyCap s) = true)
    (hc : s.count.written = false) : convertCommand f k true true s = .refused (.operandNeverWritten .count) := by
  simp [convertCommand, convertSupported, hi, hc]

/-- With N > 0 the address registers are read, `SRC` first. -/
theorem convertCommand_address_unwritten (f : ElementStep) (k : Cvt) {s : State} (hi : capIeee (lazyCap s) = true)
    (hc : s.count.written = true) (hn : s.count.value ≠ 0) (hw : s.src.written = false ∨ s.dst.written = false) :
    ∃ r, convertCommand f k true true s = .refused (.operandNeverWritten r) := by
  cases hs : s.src.written with
  | false => exact ⟨.src, by simp [convertCommand, convertSupported, convertBuffers, hi, hc, hn, hs]⟩
  | true =>
    have hd : s.dst.written = false := hw.resolve_left (by simp [hs])
    exact ⟨.dst, by simp [convertCommand, convertSupported, convertBuffers, hi, hc, hn, hs, hd]⟩

/-- A command that ends at step 3, 4 or 5 of 40 R100 answers what it answers with any other operand registers. -/
theorem exec_ends_before_operands {i : Instr} (s : State) (src dst count : OperandReg)
    (hend : capIeee (lazyCap s) = false ∨ i = .capchk ∨
      ∃ k : Cvt, ∃ dp sp, i = k.instr dp sp ∧ (sp = false ∨ dp = false)) :
    ∃ t, exec i s = .next t ∧
      exec i { s with src := src, dst := dst, count := count } =
        .next { t with src := src, dst := dst, count := count } := by
  cases hi : capIeee (lazyCap s) with
  | false =>
    exact ⟨_, unsupportedHostFailsEveryCommand i s hi, unsupportedHostFailsEveryCommand i _ hi⟩
  | true =>
    rcases hend with hno | rfl | ⟨k, dp, sp, rfl, habsent⟩
    · cases hi.symm.trans hno
    · exact ⟨_, rfl, rfl⟩
    · exact ⟨_, noOperationSucceeds k dp sp s hi (habsent.imp_right .inl),
        noOperationSucceeds k dp sp _ hi (habsent.imp_right .inl)⟩

/-- Settles O22: the reads of step 6 and 7 of 40 R100 refuse, and no earlier step reads an operand register. -/
theorem neverWrittenOperandHasNoMeaning : Obligations.NeverWrittenOperandHasNoMeaning := by
  unfold Obligations.NeverWrittenOperandHasNoMeaning
  refine ⟨fun k s hi hc => ?_, fun k s hi hc hn hw => ?_, fun i s src dst count hend => ?_⟩
  · obtain ⟨f, -, hexec⟩ := exec_cvt k
    exact ⟨.count, (hexec true true s).trans (convertCommand_count_unwritten f k hi hc)⟩
  · obtain ⟨f, -, hexec⟩ := exec_cvt k
    rw [hexec]
    exact convertCommand_address_unwritten f k hi hc hn.ne' hw
  · exact exec_ends_before_operands s src dst count hend

/-! ### `CAP` and `STATUS` in every step (10_state R37) -/

/-- What a step can do to `CAP`: leave it, run the lazy check, or reset it. -/
theorem step_cap {s t : State} (h : step s = .next t) :
    t.cap = s.cap ∨ t.cap = lazyCap s ∨ (t.cap = 0b000#3 ∧ ∃ p rest, s.pending = .reset p :: rest) := by
  rcases step_next h with ⟨v, i, rest, -, hx⟩ | ⟨p, rest, hp, rfl⟩ | ⟨a, b, rest, -, -, rfl⟩ | hk
  · exact .inr (.inl ((exec_next_cap hx).trans (lazyCap_congr rfl rfl)))
  · exact .inr (.inr ⟨rfl, p, rest, hp⟩)
  · exact .inl rfl
  · exact .inl hk.cap_eq

theorem statusOf_eq_one_iff (cap : BitVec 3) : statusOf cap = 1#1 ↔ cap.getLsbD 1 = false := by
  unfold statusOf capIeee
  cases cap.getLsbD 1 <;> decide

/-- Settles O38, by what a step does to `CAP` and what a command leaves. -/
theorem registerRulesOfEveryStep : Obligations.RegisterRulesOfEveryStep := by
  unfold Obligations.RegisterRulesOfEveryStep
  refine ⟨fun s t h hnoreset hvalid => ?_, fun s t h hlegal => ?_, fun i s t h => ?_⟩
  · rcases step_cap h with hc | hc | ⟨-, p, rest, hp⟩
    · exact hc
    · exact hc.trans (lazyCap_of_valid hvalid)
    · exact absurd hp (hnoreset p rest)
  · rcases step_cap h with hc | hc | ⟨hc, -⟩
    · exact hc ▸ hlegal
    · exact hc ▸ lazyCap_legal hlegal
    · exact hc ▸ rfl
  · rw [(exec_next h).1]
    exact ⟨lazyCap_valid s, statusOf_eq_one_iff _, rfl, rfl, rfl⟩

end Sys2Proof.Machine
end

section
/-! PROOFS. A batch is repeated conversion (45 R217): the element loop over a part of a command's elements, and the part as a
command of its own. -/

namespace Sys2Proof.Machine

/-! ### Element addresses of a part of a buffer (20_memory R56) -/

theorem elementAddr_zero (base size : Nat) : elementAddr base size 0 = base := by
  rw [elementAddr, Nat.mul_zero, Nat.add_zero]

/-- Counted from element `j`, element `i` is element `j + i`. -/
theorem elementAddr_elementAddr (base size j i : Nat) :
    elementAddr (elementAddr base size j) size i = elementAddr base size (j + i) := by
  rw [elementAddr, elementAddr, elementAddr, Nat.mul_add, Nat.add_assoc]

/-- Elements `j .. j + n - 1` end where the buffer of `N` elements ends, or before. -/
theorem elementAddr_part_end_le (base size : Nat) {j n N : Nat} (h : j + n ≤ N) :
    elementAddr base size j + size * n ≤ base + size * N := by
  rw [elementAddr, Nat.add_assoc, ← Nat.mul_add]
  exact Nat.add_le_add_left (Nat.mul_le_mul_left size h) base

theorem inRange_of_part {base size j n N a : Nat} (h : j + n ≤ N)
    (ha : InRange (elementAddr base size j) (size * n) a) : InRange base (size * N) a :=
  ⟨(element_base_le base size j).trans ha.1, ha.2.trans_le (elementAddr_part_end_le base size h)⟩

/-- Every element of an aligned buffer is aligned: an element size is a multiple of its alignment (20_memory R59). -/
theorem elementAddr_mod_baseAlign {base size j : Nat} (hdvd : baseAlign size ∣ size)
    (h : base % baseAlign size = 0) : elementAddr base size j % baseAlign size = 0 :=
  Nat.mod_eq_zero_of_dvd (Nat.dvd_add (Nat.dvd_of_mod_eq_zero h) (hdvd.mul_right j))

theorem baseAlign_dvd_srcSize (k : Cvt) : baseAlign (srcSize k) ∣ srcSize k := by cases k <;> decide

theorem baseAlign_dvd_dstSize (k : Cvt) : baseAlign (dstSize k) ∣ dstSize k := by cases k <;> decide

/-! ### A part of a command -/

/-- The element loop from element `i` of the buffers that begin at element `j` is the loop from element `j + i`. -/
theorem convertFrom_elementAddr (f : ElementStep) (p : Platform) (hhf : Bool) (k : Cvt) (src dst j n i : Nat) (m : Memory) :
    convertFrom f p hhf k (elementAddr src (srcSize k) j) (elementAddr dst (dstSize k) j) n i m =
      convertFrom f p hhf k src dst n (j + i) m := by
  induction n generalizing i m with
  | zero => rfl
  | succ n ih =>
    rw [convertFrom, convertFrom, elementAddr_elementAddr, elementAddr_elementAddr, ih, Nat.add_assoc]

/-- The operand registers of `u` name the elements `j .. j + n - 1` of the command that those of `s` name, in a state with
the same parameters and the same `CAP` after the lazy check; its memory may differ. -/
structure IsPart (k : Cvt) (s : State) (j n : Nat) (u : State) : Prop where
  platform_eq : u.platform = s.platform
  lazyCap_eq : lazyCap u = lazyCap s
  src_eq : u.src = ⟨elementAddr s.src.value (srcSize k) j, true⟩
  dst_eq : u.dst = ⟨elementAddr s.dst.value (dstSize k) j, true⟩
  count_eq : u.count = ⟨n, true⟩

/-- A part, not empty, of a command that is ready is ready (20_memory R60). -/
theorem CvtReady.of_isPart {k : Cvt} {s u : State} {j n : Nat} (h : CvtReady k s) (hu : IsPart k s j n u) (hn : 0 < n)
    (hj : j + n ≤ s.count.value) : CvtReady k u := by
  obtain ⟨hp, hcap, hsrc, hdst, hcount⟩ := hu
  constructor <;> simp only [hp, hcap, hsrc, hdst, hcount]
  case supported => exact h.supported
  case count_pos => exact hn
  case src_range => exact (elementAddr_part_end_le _ _ hj).trans h.src_range
  case dst_range => exact (elementAddr_part_end_le _ _ hj).trans h.dst_range
  case src_accessible => exact fun a ha => h.src_accessible a (inRange_of_part hj ha)
  case dst_accessible => exact fun a ha => h.dst_accessible a (inRange_of_part hj ha)
  case src_aligned => exact elementAddr_mod_baseAlign (baseAlign_dvd_srcSize k) h.src_aligned
  case dst_aligned => exact elementAddr_mod_baseAlign (baseAlign_dvd_dstSize k) h.dst_aligned
  case buffers_disjoint =>
    exact fun a ha hb => h.buffers_disjoint a (inRange_of_part hj ha) (inRange_of_part hj hb)
  case src_plain => exact fun a ha => h.src_plain a (inRange_of_part hj ha)
  case dst_plain => exact fun a ha => h.dst_plain a (inRange_of_part hj ha)

/-- A part of a ready command runs the element loop over the elements it names. -/
theorem convertCommand_part (f : ElementStep) {k : Cvt} {s u : State} {j n : Nat} (h : CvtReady k s)
    (hu : IsPart k s j n u) (hn : 0 < n) (hj : j + n ≤ s.count.value) :
    convertCommand f k true true u = .next (finishOk { lazyCheck u with
      mem := convertFrom f s.platform (capHhf (lazyCap s)) k s.src.value s.dst.value n j u.mem }) := by
  rw [convertCommand_ready f (h.of_isPart hu hn hj), hu.platform_eq, hu.lazyCap_eq, hu.src_eq, hu.dst_eq, hu.count_eq,
    convertFrom_elementAddr, Nat.add_zero]

/-- Settles O32: both commands are parts of the whole one, and the element loop over the whole is the loop over the second
part after the loop over the first. -/
theorem batchIsRepeatedConversion : Obligations.BatchIsRepeatedConversion := by
  unfold Obligations.BatchIsRepeatedConversion
  intro k s t n n' hn hn' hcount hready ht
  obtain ⟨f, -, hexec⟩ := exec_cvt k
  simp only [hexec] at ht ⊢
  have hfirst : IsPart k s 0 n { s with count := ⟨n, true⟩ } :=
    { platform_eq := rfl
      lazyCap_eq := rfl
      src_eq := by rw [elementAddr_zero, ← hready.src_written]
      dst_eq := by rw [elementAddr_zero, ← hready.dst_written]
      count_eq := rfl }
  refine ⟨_, _, convertCommand_part f hready hfirst hn (by omega),
    convertCommand_part f hready (j := n) ⟨rfl, lazyCap_of_cap_eq rfl, rfl, rfl, rfl⟩ hn' (by omega), fun a => ?_⟩
  cases (convertCommand_ready f hready).symm.trans ht
  simp only [finishOk_mem, hcount, convertFrom_add, Nat.zero_add]

end Sys2Proof.Machine
end

section
/-! PROOFS. What a converting command stores (40 R105, 20_memory R58): the outcome of a ready `CVT` command element by element,
for every conversion, and from it the halves that `CVT.S2H` stores. -/

namespace Sys2Proof.Machine

/-- A ready `CVT` command completes, changes `CAP` by the lazy check only, leaves in each destination element what one pass
over the memory before the command writes there, and leaves every other byte (40 R100, R105). -/
theorem convertCommand_converts {f : ElementStep} {k : Cvt} (hf : StepFrame f k) {s : State} (h : CvtReady k s) :
    ∃ t, convertCommand f k true true s = .next t ∧
      t = { s with cap := lazyCap s, status := 0#1, mem := t.mem } ∧
      (∀ i, i < s.count.value → ∀ b, InRange (elementAddr s.dst.value (dstSize k) i) (dstSize k) b →
        Memory.read t.mem b = Memory.read (f s.platform (capHhf (lazyCap s)) s.mem
          (elementAddr s.src.value (srcSize k) i) (elementAddr s.dst.value (dstSize k) i)) b) ∧
      (∀ b, ¬ InRange s.dst.value (dstSize k * s.count.value) b → Memory.read t.mem b = Memory.read s.mem b) :=
  ⟨_, convertCommand_ready f h, rfl,
    fun _ hi _ hb => convertFrom_element hf s.platform _ s.mem h.buffers_disjoint hi hb,
    fun _ hb => convertFrom_outside_buffer hf s.platform _ s.mem hb⟩

/-- Settles O24: the half at destination element `i` reads as the pass for that element wrote it. -/
theorem cvtS2HConvertsEveryElement : Obligations.CvtS2HConvertsEveryElement := by
  unfold Obligations.CvtS2HConvertsEveryElement
  intro s h
  obtain ⟨t, ht, hregs, helements, hframe⟩ := convertCommand_converts elementS2H_frame h
  refine ⟨t, ht, hregs, fun i hi => ?_, hframe⟩
  exact (memRead2_congr s.platform.byteOrder (helements i hi)).trans (memRead2_memWrite2 _ _ _ _)

end Sys2Proof.Machine
end

section
/-! PROOFS. The encoders S2H and D2H as one function of the magnitude bits (41 R129, 42 R149, 45 R204 to R211): both put the
sign of the input before `encodedBits` of its bits 30:0, and `encodedBits` is monotone, so each table row and threshold is
its value at the two ends of the row. -/

namespace Sys2Proof.Machine

/-! ### The rounded bits are monotone -/

theorem roundShift_mono {n n' : ℕ} (s : ℕ) (h : n ≤ n') : roundShift n s ≤ roundShift n' s := by
  rw [roundShift_eq_div, roundShift_eq_div]
  exact Nat.div_le_div_right (Nat.add_le_add_right h _)

theorem roundShift_mul_two_pow (c s : ℕ) : roundShift (2 ^ (s + 1) * c) s = c := by
  rw [← Nat.add_zero (2 ^ (s + 1) * c), roundShift_add_mul, roundShift_eq_zero (Nat.two_pow_pos s), Nat.add_zero]

/-- A significand of a lower exponent, shifted further, never rounds to more. -/
theorem roundShift_significand_le {M m m' s t : ℕ} (hm : m < 2 ^ M) (hst : s < t) :
    roundShift (2 ^ M + m) t ≤ roundShift (2 ^ M + m') s := by
  obtain ⟨k, rfl⟩ : ∃ k, t = s + (k + 1) := ⟨t - s - 1, by omega⟩
  have hdouble : 2 ^ M + m ≤ (2 ^ M + m') * 2 ^ (k + 1) := by
    have := Nat.le_mul_of_pos_right (2 ^ M + m') (Nat.two_pow_pos k)
    rw [pow_succ, ← mul_assoc]
    omega
  calc roundShift (2 ^ M + m) (s + (k + 1))
      ≤ roundShift ((2 ^ M + m') * 2 ^ (k + 1) + 0) (s + (k + 1)) := roundShift_mono _ hdouble
    _ = roundShift (2 ^ M + m') s := roundShift_low_bits _ _ (Nat.two_pow_pos _)

/-- What the rounding of a mantissa adds to the exponent field is at most the carry. -/
theorem roundShift_mantissa_le {M m : ℕ} (hM : 11 ≤ M) (hm : m < 2 ^ M) : roundShift m (M - 11) ≤ 1024 :=
  roundShift_le (k := 10) (hm.trans_le (Nat.pow_le_pow_right (by norm_num) (by omega)))

theorem roundedBits_le_of_exponent_lt {d M e e' m m' : ℕ} (hM : 11 ≤ M) (hm : m < 2 ^ M) (he : e < e') :
    roundedBits d M e m ≤ roundedBits d M e' m' := by
  rw [roundedBits, roundedBits, if_neg (show e' ≠ 0 by omega)]
  split_ifs with h0 hle' hle hle'
  · exact Nat.zero_le _
  · exact Nat.zero_le _
  · exact roundShift_significand_le hm (by omega)
  · have := roundShift_underflow_le (s := M + d - 10 - e) (by omega) hm
    omega
  · omega
  · have := roundShift_mantissa_le hM hm
    omega

theorem roundedBits_mono_mantissa (d M e : ℕ) {m m' : ℕ} (hm : m ≤ m') : roundedBits d M e m ≤ roundedBits d M e m' := by
  rw [roundedBits, roundedBits]
  split_ifs
  · exact le_rfl
  · exact roundShift_mono _ (by omega)
  · exact Nat.add_le_add_left (roundShift_mono _ hm) _

/-! ### The magnitude bits of a half, from the magnitude bits of a wide pattern -/

/-- Bits 14:0 of what an encoder answers for the magnitude bits `b` of a pattern that is no NaN, an infinity included: `M`
mantissa bits below the exponent field, whose bias exceeds the bias of a half by `d` (41 R121, 42 R141). -/
def encodedBits (d M b : ℕ) : ℕ := min (roundedBits d M (b / 2 ^ M) (b % 2 ^ M)) 0x7C00

theorem encodedBits_le (d M b : ℕ) : encodedBits d M b ≤ 0x7C00 := min_le_right _ _

/-- `encodedBits` by the exponent and the mantissa field. -/
theorem encodedBits_fields (d : ℕ) {M e m : ℕ} (hm : m < 2 ^ M) :
    encodedBits d M (2 ^ M * e + m) = min (roundedBits d M e m) 0x7C00 := by
  rw [encodedBits, Nat.mul_add_div (Nat.two_pow_pos M), Nat.div_eq_of_lt hm, Nat.add_zero, Nat.mul_add_mod,
    Nat.mod_eq_of_lt hm]

theorem encodedBits_mono {d M a b : ℕ} (hM : 11 ≤ M) (h : a ≤ b) : encodedBits d M a ≤ encodedBits d M b := by
  refine min_le_min_right _ ?_
  rcases (Nat.div_le_div_right h : a / 2 ^ M ≤ b / 2 ^ M).lt_or_eq with hlt | heq
  · exact roundedBits_le_of_exponent_lt hM (Nat.mod_lt _ (Nat.two_pow_pos M)) hlt
  · rw [heq]
    refine roundedBits_mono_mantissa d M _ ?_
    have ha := Nat.div_add_mod a (2 ^ M)
    have hb := Nat.div_add_mod b (2 ^ M)
    rw [heq] at ha
    omega

/-- Between two magnitudes that encode to the same bits every magnitude does. -/
theorem encodedBits_eq_of_between {d M lo hi b v : ℕ} (hM : 11 ≤ M) (hlo : lo ≤ b) (hhi : b ≤ hi)
    (hvlo : encodedBits d M lo = v) (hvhi : encodedBits d M hi = v) : encodedBits d M b = v :=
  le_antisymm ((encodedBits_mono hM hhi).trans_eq hvhi) (hvlo.symm.trans_le (encodedBits_mono hM hlo))

/-- From a magnitude that encodes to the infinity on, every one does. -/
theorem encodedBits_eq_inf {d M lo b : ℕ} (hM : 11 ≤ M) (hlo : lo ≤ b) (hv : encodedBits d M lo = 0x7C00) :
    encodedBits d M b = 0x7C00 :=
  le_antisymm (encodedBits_le d M b) (hv.symm.trans_le (encodedBits_mono hM hlo))

/-! ### Words and halves as a sign and magnitude bits -/

/-- A field that ends where the magnitude bits end is their quotient. -/
theorem top_field_toNat {w : ℕ} (x : BitVec w) (i n : ℕ) :
    (x.extractLsb' i n).toNat = (x.extractLsb' 0 (i + n)).toNat / 2 ^ i := by
  rw [BitVec.extractLsb'_toNat, BitVec.extractLsb'_toNat, Nat.shiftRight_eq_div_pow, Nat.shiftRight_zero, pow_add,
    Nat.mod_mul_right_div_self]

/-- A field at bit 0 is the remainder of the magnitude bits above it. -/
theorem low_field_toNat {w : ℕ} (x : BitVec w) {n k : ℕ} (h : n ≤ k) :
    (x.extractLsb' 0 n).toNat = (x.extractLsb' 0 k).toNat % 2 ^ n := by
  rw [BitVec.extractLsb'_toNat, BitVec.extractLsb'_toNat, Nat.mod_mod_of_dvd _ (pow_dvd_pow 2 h)]

theorem toNat_sign_append {n : ℕ} (s : BitVec 1) (v : BitVec n) : (s ++ v).toNat = 2 ^ n * s.toNat + v.toNat := by
  rw [BitVec.toNat_append, Nat.shiftLeft_eq, mul_comm, Nat.two_pow_add_eq_or_of_lt v.isLt]

/-- A half is its sign bit and its low 15 bits. -/
theorem half_eq_sign_append {h : Half} {s : BitVec 1} {b : ℕ} (hb : b < 2 ^ 15) (hh : h.toNat = 2 ^ 15 * s.toNat + b) :
    h = s ++ BitVec.ofNat 15 b := by
  apply BitVec.eq_of_toNat_eq
  rw [hh, toNat_sign_append, BitVec.toNat_ofNat, Nat.mod_eq_of_lt hb]

/-! ### What both encoders are -/

/-- A wide format: `M` mantissa bits, a bias that exceeds the bias of a half by `d`, and 31 bits below the sign, so that the
exponent field has the value `2 * d + 31` in infinities and NaNs (10_state R21, R22). -/
structure WideFormat (d M : ℕ) : Prop where
  excess : 11 ≤ d
  mantissa : 11 ≤ M
  width : 2 ^ M * (2 * d + 32) = 2 ^ 31

theorem singleFormat : WideFormat 112 23 := ⟨by norm_num, by norm_num, by norm_num⟩

theorem doubleHiFormat : WideFormat 1008 20 := ⟨by norm_num, by norm_num, by norm_num⟩

/-- `f` encodes the format whose NaNs `isNan` tells: a NaN to `0xFE00`, and everything else to its sign before the encoded
magnitude bits (41 R121, 42 R141). -/
structure Encodes (d M : ℕ) (f : Word → Half) (isNan : Word → Bool) : Prop where
  format : WideFormat d M
  isNan_iff : ∀ x, isNan x = true ↔ 2 ^ M * (2 * d + 31) < (x.extractLsb' 0 31).toNat
  of_nan : ∀ {x}, isNan x = true → f x = 0xFE00#16
  of_not_nan : ∀ {x}, isNan x = false →
    f x = x.extractLsb' 31 1 ++ BitVec.ofNat 15 (encodedBits d M (x.extractLsb' 0 31).toNat)

theorem singleExp_eq (x : Word) : singleExp x = (x.extractLsb' 0 31).toNat / 2 ^ 23 := top_field_toNat x 23 8

theorem singleMant_eq (x : Word) : singleMant x = (x.extractLsb' 0 31).toNat % 2 ^ 23 :=
  low_field_toNat x (by norm_num)

theorem doubleExp_eq (hi : Word) : doubleExp hi = (hi.extractLsb' 0 31).toNat / 2 ^ 20 := top_field_toNat hi 20 11

theorem doubleMantHi_eq (hi : Word) : doubleMantHi hi = (hi.extractLsb' 0 31).toNat % 2 ^ 20 :=
  low_field_toNat hi (by norm_num)

/-- S2H of an infinity or a NaN (41 R124). -/
theorem s2h_of_exp_ones {x : Word} (h : singleExp x = 255) :
    s2h x = if singleMant x = 0 then signedHalf (x.extractLsb' 31 1) 0x7C00#16 else 0xFE00#16 := by
  have hz : ¬ x.extractLsb' 0 31 = 0#31 := fun hz => by
    rw [singleExp_eq, hz] at h
    simp at h
  have hm : singleMant x = 0 ↔ x.extractLsb' 0 23 = 0#23 := BitVec.toNat_inj (y := 0#23)
  simp only [s2h, ← singleExp.eq_def, hz, h, hm, if_false, if_true]
  rfl

/-- D2H of an infinity or a NaN, judged on the high word (42 R144). -/
theorem d2h_of_exp_ones {hi : Word} (h : doubleExp hi = 2047) :
    d2h hi = if doubleMantHi hi = 0 then signedHalf (hi.extractLsb' 31 1) 0x7C00#16 else 0xFE00#16 := by
  have hz : ¬ hi.extractLsb' 0 31 = 0#31 := fun hz => by
    rw [doubleExp_eq, hz] at h
    simp at h
  have hm : doubleMantHi hi = 0 ↔ hi.extractLsb' 0 20 = 0#20 := BitVec.toNat_inj (y := 0#20)
  simp only [d2h, ← doubleExp.eq_def, hz, h, hm, if_false, if_true]
  rfl

/-- The exponent field all ones and a mantissa that is not zero, in bits (10_state R23). -/
theorem WideFormat.nan_fields_iff {d M b : ℕ} (hF : WideFormat d M) (hb : b < 2 ^ 31) :
    b / 2 ^ M = 2 * d + 31 ∧ b % 2 ^ M ≠ 0 ↔ 2 ^ M * (2 * d + 31) < b := by
  have hfields := Nat.div_add_mod b (2 ^ M)
  constructor
  · rintro ⟨he, hm⟩
    rw [he] at hfields
    omega
  · intro hlt
    have he : b / 2 ^ M = 2 * d + 31 :=
      Nat.div_eq_of_lt_le (by rw [mul_comm]; exact hlt.le) (by rw [mul_comm]; exact hb.trans_eq hF.width.symm)
    rw [he] at hfields
    exact ⟨he, by omega⟩

/-- A function that answers as 41 R121 and 42 R141 do for the exponent field all ones, and for a finite input the sign and the
rounded bits, is an encoder. -/
theorem encodes_of_fields {d M : ℕ} {f : Word → Half} {isNan : Word → Bool} {exponent mantissa : Word → ℕ}
    (hF : WideFormat d M) (hexp : ∀ x, exponent x = (x.extractLsb' 0 31).toNat / 2 ^ M)
    (hmant : ∀ x, mantissa x = (x.extractLsb' 0 31).toNat % 2 ^ M)
    (hnan : ∀ x, isNan x = (exponent x == 2 * d + 31 && mantissa x != 0))
    (hones : ∀ {x}, exponent x = 2 * d + 31 →
      f x = if mantissa x = 0 then signedHalf (x.extractLsb' 31 1) 0x7C00#16 else 0xFE00#16)
    (hfinite : ∀ {x}, exponent x ≠ 2 * d + 31 →
      (f x).toNat = 2 ^ 15 * (x.extractLsb' 31 1).toNat + min (roundedBits d M (exponent x) (mantissa x)) 0x7C00) :
    Encodes d M f isNan where
  format := hF
  isNan_iff x := by
    rw [hnan, Bool.and_eq_true, beq_iff_eq, bne_iff_ne, hexp, hmant, hF.nan_fields_iff (BitVec.isLt _)]
  of_nan {x} hx := by
    obtain ⟨he, hm⟩ : exponent x = 2 * d + 31 ∧ mantissa x ≠ 0 := by simpa [hnan] using hx
    rw [hones he, if_neg hm]
  of_not_nan {x} hx := by
    have hle := encodedBits_le d M (x.extractLsb' 0 31).toNat
    refine half_eq_sign_append (by omega) ?_
    rw [encodedBits, ← hexp, ← hmant]
    by_cases he : exponent x = 2 * d + 31
    · have hm : mantissa x = 0 := by simpa [hnan, he] using hx
      have hbits : 0x7C00 ≤ roundedBits d M (exponent x) (mantissa x) := by
        rw [roundedBits, if_neg (by omega), if_neg (by omega)]
        omega
      rw [hones he, if_pos hm, min_eq_right hbits]
      exact signedHalf_toNat _ (by decide)
    · exact hfinite he

theorem s2h_encodes : Encodes 112 23 s2h singleIsNan :=
  encodes_of_fields singleFormat singleExp_eq singleMant_eq (fun _ => rfl) s2h_of_exp_ones s2h_toNat

theorem d2h_encodes : Encodes 1008 20 d2h doubleHiIsNan :=
  encodes_of_fields doubleHiFormat doubleExp_eq doubleMantHi_eq (fun _ => rfl) d2h_of_exp_ones d2h_toNat

section
variable {d M : ℕ} {f : Word → Half} {isNan : Word → Bool} (hf : Encodes d M f isNan)
include hf

/-- The row of a table: a result that is the same at both ends of a range of magnitude bits. -/
theorem Encodes.eq_of_between {x : Word} {lo hi v : ℕ} (hx : isNan x = false) (hlo : lo ≤ (x.extractLsb' 0 31).toNat)
    (hhi : (x.extractLsb' 0 31).toNat ≤ hi) (hvlo : encodedBits d M lo = v) (hvhi : encodedBits d M hi = v) :
    f x = x.extractLsb' 31 1 ++ BitVec.ofNat 15 v := by
  rw [hf.of_not_nan hx, encodedBits_eq_of_between hf.format.mantissa hlo hhi hvlo hvhi]

/-- The magnitude bits of the result. -/
theorem Encodes.magnitude_bits {x : Word} (hx : isNan x = false) :
    ((f x).extractLsb' 0 15).toNat = encodedBits d M (x.extractLsb' 0 31).toNat := by
  have := encodedBits_le d M (x.extractLsb' 0 31).toNat
  rw [hf.of_not_nan hx, BitVec.extractLsb'_append_eq_right, BitVec.toNat_ofNat, Nat.mod_eq_of_lt (by omega)]

end

/-! ### The tables and thresholds -/

theorem singleIsNan_eq_false {x : Word} (h : singleExp x ≠ 255) : singleIsNan x = false := by
  simp [singleIsNan, h]

/-- Settles O43: a row with one result by its two ends, the two rounding rows by the rounded bits. -/
theorem s2HByExponentField : Obligations.S2HByExponentField := by
  unfold Obligations.S2HByExponentField
  intro x
  have he := singleExp_eq x
  have hm : singleMant x < 2 ^ 23 := (x.extractLsb' 0 23).isLt
  refine ⟨fun h => ?_, fun h => ?_, fun hl hu => ?_, fun hl hu => ?_, fun hl hu => ?_, fun h h0 => ?_, fun h h0 => ?_⟩
  · exact s2h_encodes.eq_of_between (hi := 0x32FFFFFF) (singleIsNan_eq_false (by omega)) (Nat.zero_le _) (by omega)
      rfl rfl
  · exact s2h_encodes.eq_of_between (lo := 0x33000000) (hi := 0x337FFFFF) (singleIsNan_eq_false (by omega)) (by omega)
      (by omega) rfl rfl
  · have hle := roundShift_underflow_le (s := 125 - singleExp x) (by omega) hm
    rw [s2h_toNat (by omega), roundedBits, if_neg (by omega), if_pos hu,
      show 23 + 112 - 10 - singleExp x = 125 - singleExp x by omega, min_eq_left (by omega), roundShift,
      show 125 - singleExp x + 1 = 126 - singleExp x by omega]
  · have hle := roundShift_mantissa_le (M := 23) (by norm_num) hm
    rw [s2h_toNat (by omega), roundedBits, if_neg (by omega), if_neg (by omega), min_eq_left (by omega), roundShift,
      Nat.add_assoc]
    norm_num
  · exact s2h_encodes.eq_of_between (lo := 0x47800000) (hi := 0x7F7FFFFF) (singleIsNan_eq_false (by omega)) (by omega)
      (by omega) rfl rfl
  · have hx : singleIsNan x = false := by simp [singleIsNan, h0]
    have hmant := singleMant_eq x
    exact s2h_encodes.eq_of_between (lo := 0x7F800000) (hi := 0x7F800000) hx (by omega) (by omega) rfl rfl
  · exact s2h_encodes.of_nan (by simp [singleIsNan, h, h0])

/-- Settles O47: each row's result is the same at its two ends. -/
theorem underflowThresholds : Obligations.UnderflowThresholds := by
  unfold Obligations.UnderflowThresholds
  refine ⟨fun x hx => ⟨fun hlt => ?_, fun hge hlt => ?_, fun heq => ?_⟩, fun hi hx => ⟨fun hlt => ?_, fun hge hlt => ?_⟩⟩
  · exact s2h_encodes.eq_of_between hx (Nat.zero_le _) (Nat.le_pred_of_lt hlt) rfl rfl
  · exact s2h_encodes.eq_of_between hx hge (Nat.le_pred_of_lt hlt) rfl rfl
  · exact s2h_encodes.eq_of_between hx heq.ge heq.le rfl rfl
  · exact d2h_encodes.eq_of_between hx (Nat.zero_le _) (Nat.le_pred_of_lt hlt) rfl rfl
  · exact d2h_encodes.eq_of_between hx hge (Nat.le_pred_of_lt hlt) rfl rfl

/-- The infinity is the result exactly from the threshold on, and below it the result is finite (45 R209). -/
theorem Encodes.overflow {d M : ℕ} {f : Word → Half} {isNan : Word → Bool} (hf : Encodes d M f isNan) {T : ℕ}
    (hbelow : encodedBits d M (T - 1) = 0x7BFF) (hat : encodedBits d M T = 0x7C00) (x : Word) :
    (f x = x.extractLsb' 31 1 ++ 0x7C00#15 ↔ isNan x = false ∧ T ≤ (x.extractLsb' 0 31).toNat) ∧
      (isNan x = false → (x.extractLsb' 0 31).toNat < T → ((f x).extractLsb' 0 15).toNat ≤ 0x7BFF) := by
  have hfinite (hlt : (x.extractLsb' 0 31).toNat < T) : encodedBits d M (x.extractLsb' 0 31).toNat ≤ 0x7BFF :=
    (encodedBits_mono hf.format.mantissa (by omega)).trans_eq hbelow
  refine ⟨⟨fun h => ?_, fun ⟨hx, hT⟩ => ?_⟩, fun hx hlt => ?_⟩
  · have hbits : ((f x).extractLsb' 0 15).toNat = 0x7C00 := by rw [h, BitVec.extractLsb'_append_eq_right]; rfl
    have hx : isNan x = false := by
      by_contra hx
      rw [hf.of_nan (by simpa using hx)] at hbits
      exact absurd hbits (by decide)
    rw [hf.magnitude_bits hx] at hbits
    exact ⟨hx, not_lt.mp fun hlt => absurd (hfinite hlt) (by omega)⟩
  · rw [hf.of_not_nan hx, encodedBits_eq_inf hf.format.mantissa hT hat]
  · rw [hf.magnitude_bits hx]
    exact hfinite hlt

/-- Settles O48: the threshold encodes to the infinity and the magnitude just below it to `0x7BFF`. -/
theorem overflowThresholds : Obligations.OverflowThresholds :=
  ⟨s2h_encodes.overflow rfl rfl, d2h_encodes.overflow rfl rfl⟩

/-- Settles O49: the magnitude bits of both results are `encodedBits` of the magnitude bits. -/
theorem encodersAreMonotone : Obligations.EncodersAreMonotone := by
  unfold Obligations.EncodersAreMonotone
  refine ⟨fun a b ha hb hab => ?_, fun a b ha hb hab => ?_⟩
  · rw [s2h_encodes.magnitude_bits ha, s2h_encodes.magnitude_bits hb]
    exact encodedBits_mono (by norm_num) hab
  · rw [d2h_encodes.magnitude_bits ha, d2h_encodes.magnitude_bits hb]
    exact encodedBits_mono (by norm_num) hab

end Sys2Proof.Machine
end

section
/-! PROOFS. The decoders H2S and H2D as one function of the magnitude bits (43 R161, 44 R181): both put the sign of the half
before `decodedBits` of its bits 14:0. -/

namespace Sys2Proof.Machine

/-! ### The magnitude bits of a wide pattern, from the magnitude bits of a half -/

/-- Bits 30:0 of what a decoder answers for the magnitude bits `c` of a half that is no NaN, in a format with `M` mantissa
bits whose bias exceeds the bias of a half by `d` (43 R161, 44 R181). In a denormal the leading bit of `c`, at
`Nat.log2 c`, becomes the implicit one (43 R164). -/
def decodedBits (d M c : ℕ) : ℕ :=
  if c = 0 then 0
  else if c < 1024 then 2 ^ M * (d - 9 + Nat.log2 c) + 2 ^ (M - 10) * (2 ^ (10 - Nat.log2 c) * c - 1024)
  else if c < 0x7C00 then 2 ^ M * (d + c / 1024) + 2 ^ (M - 10) * (c % 1024)
  else 2 ^ M * (2 * d + 31)

/-- A denormal mantissa shifted so that its leading bit is bit 10. -/
theorem shifted_denormal_bounds {c : ℕ} (h0 : c ≠ 0) (hc : c < 1024) :
    Nat.log2 c < 10 ∧ 1024 ≤ 2 ^ (10 - Nat.log2 c) * c ∧ 2 ^ (10 - Nat.log2 c) * c < 2048 := by
  have hp : Nat.log2 c < 10 := (Nat.log2_lt h0).mpr (by omega)
  have hpow (k : ℕ) : 2 ^ (10 + k) = 2 ^ (10 - Nat.log2 c) * 2 ^ (Nat.log2 c + k) := by rw [← pow_add]; congr 1; omega
  refine ⟨hp, ?_, ?_⟩
  · exact (hpow 0).trans_le (Nat.mul_le_mul_left _ (Nat.log2_self_le h0))
  · exact (Nat.mul_lt_mul_of_pos_left Nat.lt_log2_self (Nat.two_pow_pos _)).trans_eq (hpow 1).symm

section
variable {d M : ℕ} (hF : WideFormat d M)
include hF

theorem WideFormat.two_pow_eq : 2 ^ M = 2 ^ (M - 10) * 1024 := by
  have := hF.mantissa
  rw [show 1024 = 2 ^ 10 by norm_num, ← pow_add, Nat.sub_add_cancel (by omega)]

/-- Ten bits placed at the top of a wide mantissa. -/
theorem WideFormat.mantissa_lt {r : ℕ} (hr : r < 1024) : 2 ^ (M - 10) * r < 2 ^ M := by
  rw [hF.two_pow_eq]
  exact Nat.mul_lt_mul_of_pos_left hr (Nat.two_pow_pos _)

/-- A finite pattern lies below the infinity. -/
theorem WideFormat.finite_le {e r : ℕ} (he : e < 2 * d + 31) (hr : r < 1024) :
    2 ^ M * e + 2 ^ (M - 10) * r ≤ 2 ^ M * (2 * d + 31) :=
  calc 2 ^ M * e + 2 ^ (M - 10) * r ≤ 2 ^ M * e + 2 ^ M := Nat.add_le_add_left (hF.mantissa_lt hr).le _
    _ = 2 ^ M * (e + 1) := (Nat.mul_succ _ _).symm
    _ ≤ 2 ^ M * (2 * d + 31) := Nat.mul_le_mul_left _ he

/-- A decoded pattern is no NaN of the wide format. -/
theorem decodedBits_le (c : ℕ) : decodedBits d M c ≤ 2 ^ M * (2 * d + 31) := by
  rw [decodedBits]
  split_ifs with h0 hden hnorm
  · exact Nat.zero_le _
  · obtain ⟨hp, hl, hu⟩ := shifted_denormal_bounds h0 hden
    exact hF.finite_le (by omega) (by omega)
  · exact hF.finite_le (by omega) (Nat.mod_lt _ (by norm_num))
  · exact le_rfl

/-- Encoding the decoded bits gives the bits back (45 R206). -/
theorem encodedBits_decodedBits {c : ℕ} (hc : c ≤ 0x7C00) : encodedBits d M (decodedBits d M c) = c := by
  have hd := hF.excess
  have hM := hF.mantissa
  rw [decodedBits]
  split_ifs with h0 hden hnorm
  · rw [h0, encodedBits, Nat.zero_div, roundedBits, if_pos rfl]
    rfl
  · obtain ⟨hp, hl, hu⟩ := shifted_denormal_bounds h0 hden
    have hsig : 2 ^ M + 2 ^ (M - 10) * (2 ^ (10 - Nat.log2 c) * c - 1024) = 2 ^ (M - Nat.log2 c - 1 + 1) * c := by
      rw [hF.two_pow_eq, ← Nat.mul_add, Nat.add_sub_cancel' hl, ← mul_assoc, ← pow_add]
      congr 2
      omega
    rw [encodedBits_fields d (hF.mantissa_lt (by omega)), roundedBits, if_neg (by omega), if_pos (by omega), hsig,
      show M + d - 10 - (d - 9 + Nat.log2 c) = M - Nat.log2 c - 1 by omega, roundShift_mul_two_pow, min_eq_left hc]
  · rw [encodedBits_fields d (hF.mantissa_lt (Nat.mod_lt _ (by norm_num))), roundedBits, if_neg (by omega),
      if_neg (by omega), show M - 10 = M - 11 + 1 by omega, roundShift_mul_two_pow, Nat.add_sub_cancel_left,
      Nat.div_add_mod, min_eq_left hc]
  · rw [← Nat.add_zero (2 ^ M * (2 * d + 31)), encodedBits_fields d (Nat.two_pow_pos M), roundedBits,
      if_neg (by omega), if_neg (by omega)]
    omega

end

/-! ### The two decoders are one -/

/-- The word of a sign, an exponent field and ten mantissa bits, `M` mantissa bits wide (43 R161, 44 R181). -/
def packWord (M : ℕ) (hs : BitVec 1) (xes : ℤ) (frac : BitVec 10) : Word :=
  (hs.setWidth 32 <<< 31) ||| (BitVec.ofInt 32 xes <<< M) ||| (frac.setWidth 32 <<< (M - 10))

/-- H2S and the high word of H2D with what differs between them, the format and the NaN, as parameters. -/
def decodeHalf (d M : ℕ) (nan : Word) (h : Half) : Word :=
  let hs := h.extractLsb' 15 1
  let he := (h.extractLsb' 10 5).toNat
  let hm := h.extractLsb' 0 10
  if h.extractLsb' 0 15 = 0#15 then hs.setWidth 32 <<< 31
  else if he = 0 then
    let (w, s) := normalise 10 (hm.setWidth 11) 0
    packWord M hs (0 - 15 + ((d : ℤ) + 15) - ((s : ℤ) - 1)) (w.extractLsb' 0 10)
  else if he = 31 then
    if hm = 0#10 then (hs.setWidth 32 <<< 31) ||| BitVec.ofNat 32 (2 ^ M * (2 * d + 31)) else nan
  else packWord M hs ((he : ℤ) - 15 + ((d : ℤ) + 15)) hm

theorem h2s_eq_decodeHalf : h2s = decodeHalf 112 23 0xFFC00000#32 := rfl

theorem h2dHi_eq_decodeHalf (nanHi : Word) : h2dHi nanHi = decodeHalf 1008 20 nanHi := rfl

/-- The normalisation shifts the leading bit to bit 10 and counts the shifts (43 R164). -/
theorem normalise_eq {fuel : ℕ} {w : BitVec 11} (h0 : w.toNat ≠ 0) (hw : w.toNat < 1024)
    (hfuel : 10 ≤ fuel + Nat.log2 w.toNat) (s : ℕ) :
    normalise fuel w s = (w <<< (10 - Nat.log2 w.toNat), s + (10 - Nat.log2 w.toNat)) := by
  induction fuel generalizing w s with
  | zero =>
    have := (shifted_denormal_bounds h0 hw).1
    omega
  | succ fuel ih =>
    have hdouble : (w <<< 1).toNat = 2 * w.toNat := by
      rw [BitVec.toNat_shiftLeft, Nat.shiftLeft_eq, Nat.mod_eq_of_lt (by omega)]
      omega
    have hlog : Nat.log2 (w <<< 1).toNat = Nat.log2 w.toNat + 1 := by rw [hdouble, Nat.log2_two_mul h0]
    have htop : (w <<< 1).getLsbD 10 = true ↔ Nat.log2 w.toNat = 9 := by
      rw [Nat.log2_eq_iff h0, BitVec.getLsbD, hdouble, Nat.testBit_eq_decide_div_mod_eq, decide_eq_true_iff]
      omega
    rw [normalise]
    by_cases h9 : Nat.log2 w.toNat = 9
    · rw [if_pos (htop.mpr h9), h9]
    · have hp := (shifted_denormal_bounds h0 hw).1
      have hlt : 2 * w.toNat < 1024 := by
        have := Nat.lt_log2_self (n := w.toNat)
        have : 2 ^ (Nat.log2 w.toNat + 1) ≤ 2 ^ 9 := Nat.pow_le_pow_right (by norm_num) (by omega)
        omega
      rw [if_neg (htop.not.mpr h9), ih (by omega) (by omega) (by omega), hlog, ← BitVec.shiftLeft_add, Nat.add_assoc,
        show 1 + (10 - (Nat.log2 w.toNat + 1)) = 10 - Nat.log2 w.toNat by omega]

/-- `g` decodes halves into a format: a NaN to `nan`, and everything else to its sign before the decoded magnitude bits
(43 R161, 44 R181). -/
structure Decodes (d M : ℕ) (g : Half → Word) (nan : Word) : Prop where
  format : WideFormat d M
  of_nan : ∀ {h}, halfIsNan h = true → g h = nan
  of_not_nan : ∀ {h}, halfIsNan h = false →
    g h = h.extractLsb' 15 1 ++ BitVec.ofNat 31 (decodedBits d M (h.extractLsb' 0 15).toNat)

theorem halfExp_eq (h : Half) : halfExp h = (h.extractLsb' 0 15).toNat / 1024 := top_field_toNat h 10 5

theorem halfMant_eq (h : Half) : halfMant h = (h.extractLsb' 0 15).toNat % 1024 := low_field_toNat h (by norm_num)

theorem halfIsNan_iff (h : Half) : halfIsNan h = true ↔ 0x7C00 < (h.extractLsb' 0 15).toNat := by
  have := (h.extractLsb' 0 15).isLt
  simp only [halfIsNan, halfExp_eq, halfMant_eq, Bool.and_eq_true, beq_iff_eq, bne_iff_ne]
  omega

/-- A sign bit shifted above 31 bits. -/
theorem sign_shiftLeft_or (hs : BitVec 1) (v : BitVec 31) :
    (hs.setWidth 32 <<< 31) ||| v.setWidth 32 = hs ++ v := by
  rw [← BitVec.setWidth_append_eq_shiftLeft_setWidth_or]
  exact BitVec.setWidth_eq _

theorem packWord_eq {d M j : ℕ} (hF : WideFormat d M) (hj : j < 2 * d + 31) (hs : BitVec 1) (frac : BitVec 10) :
    packWord M hs j frac = hs ++ BitVec.ofNat 31 (2 ^ M * j + 2 ^ (M - 10) * frac.toNat) := by
  have hwidth := hF.width
  have hbits := hF.finite_le hj frac.isLt
  have hsum : 2 ^ M * j + 2 ^ (M - 10) * frac.toNat < 2 ^ 31 := by
    rw [show 2 * d + 32 = 2 * d + 31 + 1 by omega, Nat.mul_succ] at hwidth
    have := Nat.two_pow_pos M
    omega
  have hexp : (BitVec.ofInt 32 j <<< M).toNat = 2 ^ M * j := by
    have hmod : j % 2 ^ 32 = j := Nat.mod_eq_of_lt (by have := Nat.le_mul_of_pos_left j (Nat.two_pow_pos M); omega)
    rw [BitVec.ofInt_natCast, BitVec.toNat_shiftLeft, Nat.shiftLeft_eq, BitVec.toNat_ofNat, hmod, mul_comm,
      Nat.mod_eq_of_lt (by omega)]
  have hfrac : (frac.setWidth 32 <<< (M - 10)).toNat = 2 ^ (M - 10) * frac.toNat := by
    have hmod : frac.toNat % 2 ^ 32 = frac.toNat := Nat.mod_eq_of_lt (frac.isLt.trans (by norm_num))
    rw [BitVec.toNat_shiftLeft, Nat.shiftLeft_eq, BitVec.toNat_setWidth, hmod, mul_comm, Nat.mod_eq_of_lt (by omega)]
  rw [packWord, BitVec.or_assoc, ← sign_shiftLeft_or]
  congr 1
  apply BitVec.eq_of_toNat_eq
  rw [BitVec.toNat_or, hexp, hfrac, ← Nat.two_pow_add_eq_or_of_lt (hF.mantissa_lt frac.isLt), BitVec.toNat_setWidth,
    BitVec.toNat_ofNat, Nat.mod_eq_of_lt hsum, Nat.mod_eq_of_lt (by omega)]

/-! ### What both decoders answer -/

section
variable {d M : ℕ} (hF : WideFormat d M)
include hF

theorem decodeHalf_of_denormal (nan : Word) {h : Half} (h0 : (h.extractLsb' 0 15).toNat ≠ 0)
    (hc : (h.extractLsb' 0 15).toNat < 1024) :
    decodeHalf d M nan h = h.extractLsb' 15 1 ++ BitVec.ofNat 31 (decodedBits d M (h.extractLsb' 0 15).toNat) := by
  have hd := hF.excess
  obtain ⟨hp, hl, hu⟩ := shifted_denormal_bounds h0 hc
  have he := halfExp_eq h
  have hz : ¬ h.extractLsb' 0 15 = 0#15 := fun hz => h0 (by rw [hz]; rfl)
  have hw : ((h.extractLsb' 0 10).setWidth 11).toNat = (h.extractLsb' 0 15).toNat := by
    rw [BitVec.toNat_setWidth, low_field_toNat h (show 10 ≤ 15 by norm_num)]
    omega
  have hfrac : (((h.extractLsb' 0 10).setWidth 11 <<< (10 - Nat.log2 (h.extractLsb' 0 15).toNat)).extractLsb' 0 10).toNat =
      2 ^ (10 - Nat.log2 (h.extractLsb' 0 15).toNat) * (h.extractLsb' 0 15).toNat - 1024 := by
    rw [BitVec.extractLsb'_toNat, BitVec.toNat_shiftLeft, hw, Nat.shiftLeft_eq, mul_comm]
    omega
  have hxes : 0 - 15 + ((d : ℤ) + 15) - (((0 + (10 - Nat.log2 (h.extractLsb' 0 15).toNat) : ℕ) : ℤ) - 1) =
      ((d - 9 + Nat.log2 (h.extractLsb' 0 15).toNat : ℕ) : ℤ) := by omega
  simp only [decodeHalf, ← halfExp.eq_def]
  rw [if_neg hz, if_pos (by omega), normalise_eq (by rwa [hw]) (by rwa [hw]) (by omega), hw]
  dsimp only
  rw [hxes, packWord_eq hF (by omega), hfrac, decodedBits, if_neg h0, if_pos hc]

theorem decodeHalf_of_normal (nan : Word) {h : Half} (hl : 1024 ≤ (h.extractLsb' 0 15).toNat)
    (hu : (h.extractLsb' 0 15).toNat < 0x7C00) :
    decodeHalf d M nan h = h.extractLsb' 15 1 ++ BitVec.ofNat 31 (decodedBits d M (h.extractLsb' 0 15).toNat) := by
  have hz : ¬ h.extractLsb' 0 15 = 0#15 := fun hz => by simp [hz] at hl
  have he := halfExp_eq h
  have hm : (h.extractLsb' 0 10).toNat = (h.extractLsb' 0 15).toNat % 1024 := halfMant_eq h
  have hxes : (halfExp h : ℤ) - 15 + ((d : ℤ) + 15) = ((d + halfExp h : ℕ) : ℤ) := by push_cast; ring
  simp only [decodeHalf, ← halfExp.eq_def]
  rw [if_neg hz, if_neg (by omega), if_neg (by omega), hxes, packWord_eq hF (by omega), decodedBits, if_neg (by omega),
    if_neg (by omega), if_pos hu, hm, he]

omit hF in
theorem decodeHalf_of_zero (nan : Word) {h : Half} (h0 : h.extractLsb' 0 15 = 0#15) :
    decodeHalf d M nan h = h.extractLsb' 15 1 ++ 0#31 := by
  simp only [decodeHalf]
  rw [if_pos h0, ← sign_shiftLeft_or]
  simp

omit hF in
theorem decodeHalf_of_exp_ones (nan : Word) {h : Half} (he : halfExp h = 31) :
    decodeHalf d M nan h =
      if halfMant h = 0 then
        ((h.extractLsb' 15 1).setWidth 32 <<< 31) ||| BitVec.ofNat 32 (2 ^ M * (2 * d + 31))
      else nan := by
  have hz : ¬ h.extractLsb' 0 15 = 0#15 := fun hz => by
    rw [halfExp_eq, hz] at he
    simp at he
  have hm : halfMant h = 0 ↔ h.extractLsb' 0 10 = 0#10 := BitVec.toNat_inj (y := 0#10)
  simp only [decodeHalf, ← halfExp.eq_def]
  simp [hz, he, hm]

theorem decodeHalf_of_inf (nan : Word) {h : Half} (hc : (h.extractLsb' 0 15).toNat = 0x7C00) :
    decodeHalf d M nan h = h.extractLsb' 15 1 ++ BitVec.ofNat 31 (decodedBits d M (h.extractLsb' 0 15).toNat) := by
  have hwidth := hF.width
  have hlt : 2 ^ M * (2 * d + 31) < 2 ^ 31 := hwidth ▸ Nat.mul_lt_mul_of_pos_left (by omega) (Nat.two_pow_pos M)
  rw [decodeHalf_of_exp_ones nan (by rw [halfExp_eq, hc]), if_pos (by rw [halfMant_eq, hc]), ← sign_shiftLeft_or, hc]
  congr 1
  apply BitVec.eq_of_toNat_eq
  rw [BitVec.toNat_setWidth, BitVec.toNat_ofNat, BitVec.toNat_ofNat, decodedBits, if_neg (by omega), if_neg (by omega),
    if_neg (by omega), Nat.mod_eq_of_lt hlt]

theorem decodeHalf_decodes (nan : Word) : Decodes d M (decodeHalf d M nan) nan where
  format := hF
  of_nan {h} hn := by
    obtain ⟨he, hm⟩ : halfExp h = 31 ∧ halfMant h ≠ 0 := by simpa [halfIsNan] using hn
    rw [decodeHalf_of_exp_ones nan he, if_neg hm]
  of_not_nan {h} hn := by
    have hle : (h.extractLsb' 0 15).toNat ≤ 0x7C00 := not_lt.mp fun hlt => by simp [(halfIsNan_iff h).mpr hlt] at hn
    by_cases h0 : h.extractLsb' 0 15 = 0#15
    · rw [decodeHalf_of_zero nan h0, h0]
      rfl
    have h0' : (h.extractLsb' 0 15).toNat ≠ 0 := fun hz => h0 (BitVec.eq_of_toNat_eq hz)
    rcases Nat.lt_or_ge (h.extractLsb' 0 15).toNat 1024 with hden | hge
    · exact decodeHalf_of_denormal hF nan h0' hden
    rcases hle.lt_or_eq with hlt | hinf
    · exact decodeHalf_of_normal hF nan hge hlt
    · exact decodeHalf_of_inf hF nan hinf

end

theorem h2s_decodes : Decodes 112 23 h2s 0xFFC00000#32 := decodeHalf_decodes singleFormat _

theorem h2dHi_decodes (nanHi : Word) : Decodes 1008 20 (h2dHi nanHi) nanHi := decodeHalf_decodes doubleHiFormat _

end Sys2Proof.Machine
end

section
/-! PROOFS. Encoders and decoders together (45 R204, R206, R212, R215, R216): round trips, the image of the encoders, the sign,
and the two encoders on equal values. -/

namespace Sys2Proof.Machine

/-! ### Round trips -/

section
variable {d M : ℕ} {f : Word → Half} {isNan : Word → Bool} {g : Half → Word} {nan : Word}

/-- The magnitude bits of a decoded half. -/
theorem Decodes.magnitude_bits (hg : Decodes d M g nan) {h : Half} (hn : halfIsNan h = false) :
    ((g h).extractLsb' 0 31).toNat = decodedBits d M (h.extractLsb' 0 15).toNat := by
  have hle := decodedBits_le hg.format (h.extractLsb' 0 15).toNat
  have hlt : 2 ^ M * (2 * d + 31) < 2 ^ 31 :=
    hg.format.width ▸ Nat.mul_lt_mul_of_pos_left (by omega) (Nat.two_pow_pos M)
  rw [hg.of_not_nan hn, BitVec.extractLsb'_append_eq_right, BitVec.toNat_ofNat, Nat.mod_eq_of_lt (by omega)]

/-- A half returns from the wide format as it was, and every NaN as `0xFE00` (45 R206). -/
theorem Encodes.of_decodes (hf : Encodes d M f isNan) (hg : Decodes d M g nan) (hnan : isNan nan = true) (h : Half) :
    f (g h) = if halfIsNan h = true then 0xFE00#16 else h := by
  by_cases hn : halfIsNan h = true
  · rw [if_pos hn, hg.of_nan hn, hf.of_nan hnan]
  · have hle : (h.extractLsb' 0 15).toNat ≤ 0x7C00 := not_lt.mp ((halfIsNan_iff h).not.mp hn)
    have hn' : halfIsNan h = false := by simpa using hn
    have hbits := hg.magnitude_bits hn'
    have hwide : isNan (g h) = false := by
      rw [← Bool.not_eq_true, hf.isNan_iff, hbits, not_lt]
      exact decodedBits_le hg.format _
    rw [if_neg hn, hf.of_not_nan hwide, hbits, encodedBits_decodedBits hg.format hle, hg.of_not_nan hn',
      BitVec.extractLsb'_append_eq_left, BitVec.ofNat_toNat, BitVec.setWidth_eq]
    exact BitVec.extractLsb'_append_extractLsb' (w := 1)

/-- A wide pattern returns from the half it encodes to exactly when it is a decoded half (45 R215). -/
theorem Encodes.decode_eq_self_iff (hf : Encodes d M f isNan) (hg : Decodes d M g nan) (hnan : isNan nan = true)
    (x : Word) : g (f x) = x ↔ ∃ h, x = g h := by
  refine ⟨fun hx => ⟨f x, hx.symm⟩, ?_⟩
  rintro ⟨h, rfl⟩
  rw [hf.of_decodes hg hnan]
  split_ifs with hn
  · rw [hg.of_nan hn, hg.of_nan (by decide)]
  · rfl

end

theorem doubleHiIsNan_of_isNanHighWord {hi : Word} (h : isNanHighWord hi = true) : doubleHiIsNan hi = true := by
  simp only [isNanHighWord, Bool.and_eq_true, beq_iff_eq, bne_iff_ne] at h
  obtain ⟨he, hm⟩ := h
  have hm' : doubleMantHi hi ≠ 0 := fun h0 => hm (BitVec.eq_of_toNat_eq h0)
  simp [doubleHiIsNan, doubleExp, he, hm']

/-- Settles O57: H2S with S2H, and H2D with D2H for a legal NaN high word, are decoder and encoder of one format. -/
theorem halvesSurviveTheRoundTrip : Obligations.HalvesSurviveTheRoundTrip :=
  ⟨s2h_encodes.of_decodes h2s_decodes (by decide), fun nanHi h hnan =>
    d2h_encodes.of_decodes (h2dHi_decodes nanHi) (doubleHiIsNan_of_isNanHighWord hnan) h⟩

/-- Settles O58: as O57, and the low word of every decoded double is 0. -/
theorem wideRoundTripFixesTheDecoderImage : Obligations.WideRoundTripFixesTheDecoderImage := by
  unfold Obligations.WideRoundTripFixesTheDecoderImage
  refine ⟨s2h_encodes.decode_eq_self_iff h2s_decodes (by decide), fun nanHi hi lo hnan => ?_⟩
  have hiff := d2h_encodes.decode_eq_self_iff (h2dHi_decodes nanHi) (doubleHiIsNan_of_isNanHighWord hnan) hi
  simp only [h2d, Prod.mk.injEq, exists_and_right, hiff, eq_comm (a := lo)]

/-! ### The image of the encoders -/

/-- The one NaN an encoder answers (45 R212). -/
theorem Encodes.eq_of_nan {d M : ℕ} {f : Word → Half} {isNan : Word → Bool} (hf : Encodes d M f isNan) {x : Word}
    (h : halfIsNan (f x) = true) : f x = 0xFE00#16 := by
  by_contra hne
  have hx : isNan x = false := by
    rw [← Bool.not_eq_true]
    exact fun hx => hne (hf.of_nan hx)
  rw [halfIsNan_iff, hf.magnitude_bits hx] at h
  exact absurd (encodedBits_le d M (x.extractLsb' 0 31).toNat) (by omega)

/-- Settles O50: a half that is no NaN is the code of its own decoding, `0xFE00` that of a NaN. -/
theorem imageOfTheEncoders : Obligations.ImageOfTheEncoders := by
  unfold Obligations.ImageOfTheEncoders
  obtain ⟨hs, hd⟩ := halvesSurviveTheRoundTrip
  refine ⟨fun h hn => ⟨⟨h2s h, ?_⟩, ⟨(h2d 0xFFF80000#32 h).1, ?_⟩⟩, ⟨0x7FC00000#32, s2h_encodes.of_nan (by decide)⟩,
    ⟨0xFFF80000#32, d2h_encodes.of_nan (by decide)⟩, fun x => s2h_encodes.eq_of_nan, fun hi => d2h_encodes.eq_of_nan⟩
  · rw [hs, hn, if_neg Bool.false_ne_true]
  · rw [hd _ _ (by decide), hn, if_neg Bool.false_ne_true]

/-! ### The sign -/

theorem halfSign_append (s : BitVec 1) (v : BitVec 15) : halfSign (s ++ v) = s.getLsbD 0 := by
  rw [halfSign, BitVec.getLsbD_append]
  rfl

theorem wordSign_append (s : BitVec 1) (v : BitVec 31) : wordSign (s ++ v) = s.getLsbD 0 := by
  rw [wordSign, BitVec.getLsbD_append]
  rfl

theorem halfSign_eq (h : Half) : halfSign h = (h.extractLsb' 15 1).getLsbD 0 := by simp [halfSign]

theorem wordSign_eq (x : Word) : wordSign x = (x.extractLsb' 31 1).getLsbD 0 := by simp [wordSign]

/-- Flipping the top bit of a pattern flips its sign and leaves its magnitude bits. -/
theorem sign_append_xor {n : ℕ} (s : BitVec 1) (v : BitVec n) : (s ++ v) ^^^ (1#1 ++ 0#n) = (s ^^^ 1#1) ++ v := by
  rw [BitVec.xor_append, BitVec.xor_zero]

theorem Encodes.sign_symmetric {d M : ℕ} {f : Word → Half} {isNan : Word → Bool} (hf : Encodes d M f isNan) {x : Word}
    (hx : isNan x = false) :
    f (x ^^^ 0x80000000#32) = f x ^^^ 0x8000#16 ∧ halfSign (f x) = wordSign x := by
  have hsign : (x ^^^ 0x80000000#32).extractLsb' 31 1 = x.extractLsb' 31 1 ^^^ 1#1 := BitVec.extractLsb'_xor
  have hmag : (x ^^^ 0x80000000#32).extractLsb' 0 31 = x.extractLsb' 0 31 :=
    BitVec.extractLsb'_xor.trans BitVec.xor_zero
  have hx' : isNan (x ^^^ 0x80000000#32) = false := by
    rwa [← Bool.not_eq_true, hf.isNan_iff, hmag, ← hf.isNan_iff, Bool.not_eq_true]
  rw [hf.of_not_nan hx', hf.of_not_nan hx, hsign, hmag, halfSign_append, wordSign_eq]
  exact ⟨(sign_append_xor _ _).symm, rfl⟩

theorem Decodes.sign_symmetric {d M : ℕ} {g : Half → Word} {nan : Word} (hg : Decodes d M g nan) {h : Half}
    (hn : halfIsNan h = false) :
    g (h ^^^ 0x8000#16) = g h ^^^ 0x80000000#32 ∧ wordSign (g h) = halfSign h := by
  have hsign : (h ^^^ 0x8000#16).extractLsb' 15 1 = h.extractLsb' 15 1 ^^^ 1#1 := BitVec.extractLsb'_xor
  have hmag : (h ^^^ 0x8000#16).extractLsb' 0 15 = h.extractLsb' 0 15 := BitVec.extractLsb'_xor.trans BitVec.xor_zero
  have hn' : halfIsNan (h ^^^ 0x8000#16) = false := by
    rwa [← Bool.not_eq_true, halfIsNan_iff, hmag, ← halfIsNan_iff, Bool.not_eq_true]
  rw [hg.of_not_nan hn', hg.of_not_nan hn, hsign, hmag, wordSign_append, halfSign_eq]
  exact ⟨(sign_append_xor _ _).symm, rfl⟩

/-- Settles O59: all four functions put the sign of the input before bits that depend on its magnitude alone. -/
theorem conversionsAreSignSymmetric : Obligations.ConversionsAreSignSymmetric :=
  ⟨fun _ => s2h_encodes.sign_symmetric, fun _ => d2h_encodes.sign_symmetric, fun _ => h2s_decodes.sign_symmetric,
    fun nanHi _ => (h2dHi_decodes nanHi).sign_symmetric⟩

/-! ### Equal values -/

/-- Larger magnitude bits are a larger magnitude, beyond the largest finite half too. -/
theorem gridValue_strictMono : StrictMono gridValue := by
  refine strictMono_nat_of_lt_succ fun b => ?_
  obtain ⟨j, c, hc, rfl⟩ : ∃ j c, c < 1024 ∧ b = 1024 * j + c :=
    ⟨b / 1024, b % 1024, Nat.mod_lt _ (by norm_num), (Nat.div_add_mod b 1024).symm⟩
  rw [Nat.add_assoc]
  rcases Nat.eq_zero_or_pos j with rfl | hj
  · rw [Nat.mul_zero, Nat.zero_add, Nat.zero_add, gridValue_denormal hc.le, gridValue_denormal hc]
    gcongr
    exact Nat.lt_succ_self c
  · rw [gridValue_normal hj hc.le, gridValue_normal hj hc]
    gcongr
    exact Nat.lt_succ_self c

theorem roundedMagnitude_single (x : Word) :
    roundedMagnitude (singleMagnitude x) = gridValue (roundedBits 112 23 (singleExp x) (singleMant x)) :=
  roundedMagnitude_magnitude (by norm_num) (by norm_num) (by norm_num) (x.extractLsb' 0 23).isLt

theorem roundedMagnitude_double (hi lo : Word) :
    roundedMagnitude (doubleMagnitude hi lo) = gridValue (roundedBits 1008 20 (doubleExp hi) (doubleMantHi hi)) := by
  have hhi : doubleMantHi hi < 2 ^ 20 := (hi.extractLsb' 0 20).isLt
  have hlo := lo.isLt
  have hmant : doubleMant hi lo < 2 ^ 52 := by rw [doubleMant]; omega
  rw [← roundedBits_low_bits (by norm_num) hlo]
  exact roundedMagnitude_magnitude (by norm_num) (by norm_num) (by norm_num) hmant

/-- Settles O51: equal magnitudes round to the same magnitude, and different rounded bits have different magnitudes. -/
theorem encodersAgreeOnEqualValues : Obligations.EncodersAgreeOnEqualValues := by
  unfold Obligations.EncodersAgreeOnEqualValues
  have hsign {x hi : Word} (h : wordSign x = wordSign hi) : x.extractLsb' 31 1 = hi.extractLsb' 31 1 :=
    BitVec.eq_of_toNat_eq (by rw [signBit_toNat, signBit_toNat, h])
  refine ⟨fun x hi lo hx hhi hs hv => ?_, fun x hi hx hx0 hhi hhi0 hs => ?_⟩
  · have hbits : roundedBits 112 23 (singleExp x) (singleMant x) = roundedBits 1008 20 (doubleExp hi) (doubleMantHi hi) :=
      gridValue_strictMono.injective (by rw [← roundedMagnitude_single, hv, roundedMagnitude_double])
    apply BitVec.eq_of_toNat_eq
    rw [s2h_toNat hx, d2h_toNat hhi, hsign hs, hbits]
  · rw [s2h_of_exp_ones hx, if_pos hx0, d2h_of_exp_ones hhi, if_pos hhi0, hsign hs]

end Sys2Proof.Machine
end

section
/-! PROOFS. The encoder D2H (42 R140 to R150): the halves that `CVT.D2H` stores, that no low word reaches them, and the table
of D2H by exponent field. -/

namespace Sys2Proof.Machine

/-! ### The command (42 R150) -/

/-- Settles O25: the half at destination element `i` reads as the pass for that element wrote it. -/
theorem cvtD2HConvertsEveryElement : Obligations.CvtD2HConvertsEveryElement := by
  unfold Obligations.CvtD2HConvertsEveryElement
  intro s h
  obtain ⟨t, ht, hregs, helements, hframe⟩ := convertCommand_converts elementD2H_frame h
  refine ⟨t, ht, hregs, fun i hi => ?_, hframe⟩
  exact (memRead2_congr s.platform.byteOrder (helements i hi)).trans (memRead2_memWrite2 _ _ _ _)

/-- Every byte of a buffer lies in one of its elements (20_memory R56). -/
theorem exists_element_of_inRange {base size n a : Nat} (h : InRange base (size * n) a) :
    ∃ i, i < n ∧ InRange (elementAddr base size i) size a := by
  obtain ⟨hl, hu⟩ := h
  have hsize : 0 < size := Nat.pos_of_mul_pos_right (by omega : 0 < size * n)
  have hfields := Nat.div_add_mod (a - base) size
  have hmod := Nat.mod_lt (a - base) hsize
  refine ⟨(a - base) / size, Nat.div_lt_of_lt_mul (by omega), ?_⟩
  unfold InRange elementAddr
  omega

/-- What one pass of `CVT.D2H` stores depends on the high word of its source double only (20_memory R58). -/
theorem elementD2H_inside_of_hiWord_eq {p : Platform} {hhf : Bool} {m m' : Memory} {s t b : Nat}
    (h : memRead4 p.byteOrder m (hiAddr hhf s) = memRead4 p.byteOrder m' (hiAddr hhf s)) (hb : InRange t 2 b) :
    Memory.read (elementD2H p hhf m s t) b = Memory.read (elementD2H p hhf m' s t) b := by
  simp only [elementD2H, h]
  exact memWrite2_inside _ _ _ _ _ hb

/-- Whether a command is ready does not depend on the memory. -/
theorem CvtReady.with_mem {k : Cvt} {s : State} (h : CvtReady k s) (m : Memory) : CvtReady k { s with mem := m } :=
  { h with }

/-- Settles O31: the byte lies in a destination element, whose pass finds the same high word in both memories. -/
theorem lowWordsNeverReachTheHalves : Obligations.LowWordsNeverReachTheHalves := by
  unfold Obligations.LowWordsNeverReachTheHalves
  intro s t m h ht hhi
  obtain ⟨u, hu, -, helements, -⟩ := convertCommand_converts elementD2H_frame h
  obtain ⟨t', ht', -, helements', -⟩ := convertCommand_converts elementD2H_frame (h.with_mem m)
  cases hu.symm.trans ht
  refine ⟨t', ht', fun a ha => ?_⟩
  obtain ⟨i, hi, hia⟩ := exists_element_of_inRange ha
  rw [helements i hi a hia, helements' i hi a hia]
  exact elementD2H_inside_of_hiWord_eq (hhi i hi) hia

/-! ### The table of D2H (42 R149) -/

/-- The row of the half denormals: the significand shifted, and the highest bit shifted out (42 R146). -/
theorem d2h_toNat_of_underflow {hi : Word} (hl : 0 < doubleExp hi) (hu : doubleExp hi ≤ 1008) :
    (d2h hi).toNat =
      2 ^ 15 * (hi.extractLsb' 31 1).toNat + roundShift (2 ^ 20 + doubleMantHi hi) (1018 - doubleExp hi) := by
  have hm : doubleMantHi hi < 2 ^ 20 := (hi.extractLsb' 0 20).isLt
  have hle := roundShift_underflow_le (s := 1018 - doubleExp hi) (by omega) hm
  rw [d2h_toNat (by omega), roundedBits, if_neg (by omega), if_pos hu,
    show 20 + 1008 - 10 - doubleExp hi = 1018 - doubleExp hi by omega, min_eq_left (by omega)]

/-- The row of the half normals: the exponent re-biased, and the mantissa rounded into it by a carry (42 R148). -/
theorem d2h_toNat_of_normal {hi : Word} (hl : 1008 < doubleExp hi) (hu : doubleExp hi < 1039) :
    (d2h hi).toNat =
      2 ^ 15 * (hi.extractLsb' 31 1).toNat + (1024 * (doubleExp hi - 1008) + roundShift (doubleMantHi hi) 9) := by
  have hm : doubleMantHi hi < 2 ^ 20 := (hi.extractLsb' 0 20).isLt
  have hle := roundShift_mantissa_le (M := 20) (by norm_num) hm
  rw [d2h_toNat (by omega), roundedBits, if_neg (by omega), if_neg (by omega), min_eq_left (by omega)]

theorem doubleHiIsNan_eq_false {hi : Word} (h : doubleExp hi ≠ 2047) : doubleHiIsNan hi = false := by
  simp [doubleHiIsNan, h]

/-- Settles O44: a row with one result by its two ends, the two rounding rows by the rounded bits, and the exponent field all
ones by the mantissa. -/
theorem d2HByExponentField : Obligations.D2HByExponentField := by
  unfold Obligations.D2HByExponentField
  intro hi
  have he := doubleExp_eq hi
  refine ⟨fun hu => ?zero, fun h => ?least, fun hl hu => ?underflow, fun hl hu => ?normal, fun hl hu => ?overflow,
    fun h h0 => ?infinity, fun h h0 => ?nan⟩
  case zero =>
    exact d2h_encodes.eq_of_between (hi := 0x3E5FFFFF) (doubleHiIsNan_eq_false (by omega)) (Nat.zero_le _) (by omega)
      rfl rfl
  case least =>
    exact d2h_encodes.eq_of_between (lo := 0x3E600000) (hi := 0x3E6FFFFF) (doubleHiIsNan_eq_false (by omega)) (by omega)
      (by omega) rfl rfl
  case underflow =>
    rw [d2h_toNat_of_underflow (by omega) hu, roundShift,
      show 1018 - doubleExp hi + 1 = 1019 - doubleExp hi by omega]
  case normal =>
    rw [d2h_toNat_of_normal hl (by omega), roundShift, Nat.add_assoc]
    rfl
  case overflow =>
    exact d2h_encodes.eq_of_between (lo := 0x40F00000) (hi := 0x7FEFFFFF) (doubleHiIsNan_eq_false (by omega)) (by omega)
      (by omega) rfl rfl
  case infinity =>
    have hm := doubleMantHi_eq hi
    exact d2h_encodes.eq_of_between (lo := 0x7FF00000) (hi := 0x7FF00000) (by simp [doubleHiIsNan, h0]) (by omega)
      (by omega) rfl rfl
  case nan => exact d2h_encodes.of_nan (by simp [doubleHiIsNan, h, h0])

end Sys2Proof.Machine
end

section
/-! PROOFS. The decoder H2S (43 R160 to R170): the singles that `CVT.H2S` stores, a buffer of halves through singles and back,
and the exponent and mantissa fields that both decoders answer, from which follow the classes of H2S and the comparison with
H2D. -/

namespace Sys2Proof.Machine

/-! ### The command (43 R170) -/

/-- Settles O26: the single at destination element `i` reads as the pass for that element wrote it. -/
theorem cvtH2SConvertsEveryElement : Obligations.CvtH2SConvertsEveryElement := by
  unfold Obligations.CvtH2SConvertsEveryElement
  intro s h
  obtain ⟨t, ht, hregs, helements, hframe⟩ := convertCommand_converts elementH2S_frame h
  refine ⟨t, ht, hregs, fun i hi => ?_, hframe⟩
  exact (memRead4_congr s.platform.byteOrder (helements i hi)).trans (memRead4_memWrite4 _ _ _ _)

/-- A command that is ready is ready after another command, which leaves the `CAP` of the lazy check, some `STATUS` and some
memory. -/
theorem CvtReady.after_command {k : Cvt} {s : State} (h : CvtReady k s) (status : BitVec 1) (m : Memory) :
    CvtReady k { s with cap := lazyCap s, status := status, mem := m } :=
  { h with supported := by rw [lazyCap_of_cap_eq (s := s) rfl, h.supported] }

/-- Settles O34: the second command reads the singles that the first one stored, and each half survives the round trip. -/
theorem bufferRoundTripThroughSingles : Obligations.BufferRoundTripThroughSingles := by
  unfold Obligations.BufferRoundTripThroughSingles
  intro s c hwiden hnarrow
  obtain ⟨t, ht, hregs, hsingles, -⟩ := cvtH2SConvertsEveryElement s hwiden
  have hready : CvtReady .s2h { t with src := s.dst, dst := ⟨c, true⟩ } := by
    rw [hregs]
    exact hnarrow.after_command 0#1 t.mem
  obtain ⟨u, hu, -, hhalves, -⟩ := cvtS2HConvertsEveryElement _ hready
  refine ⟨t, u, ht, hu, fun i hi => ?_⟩
  have hplatform : t.platform = s.platform := by rw [hregs]
  have hcount : t.count = s.count := by rw [hregs]
  have hhalf := hhalves i (by rwa [hcount])
  simp only [hplatform, hsingles i hi] at hhalf
  rw [hhalf, halvesSurviveTheRoundTrip.1]

/-! ### The fields of a decoded half -/

/-- The exponent field, of a bias that exceeds the bias of a half by `d`, of the decoded magnitude bits `c` of a half that is
no NaN (43 R162 to R165). -/
def decodedExp (d c : ℕ) : ℕ :=
  if c = 0 then 0
  else if c < 1024 then d - 9 + Nat.log2 c
  else if c < 0x7C00 then d + c / 1024
  else 2 * d + 31

/-- The top ten mantissa bits of the decoded magnitude bits `c`, the only ones that can be set; they do not depend on the
format. -/
def decodedFrac (c : ℕ) : ℕ :=
  if c = 0 then 0
  else if c < 1024 then 2 ^ (10 - Nat.log2 c) * c - 1024
  else c % 1024

theorem decodedFrac_lt (c : ℕ) : decodedFrac c < 1024 := by
  rw [decodedFrac]
  split_ifs with h0 hden
  · norm_num
  · obtain ⟨-, hl, hu⟩ := shifted_denormal_bounds h0 hden
    omega
  · exact Nat.mod_lt _ (by norm_num)

theorem decodedBits_eq_fields (d M : ℕ) {c : ℕ} (hc : c ≤ 0x7C00) :
    decodedBits d M c = 2 ^ M * decodedExp d c + 2 ^ (M - 10) * decodedFrac c := by
  rw [decodedBits, decodedExp, decodedFrac]
  split_ifs with h0 hden hnorm
  · rfl
  · rfl
  · rfl
  · rw [show c % 1024 = 0 by omega, Nat.mul_zero]
    rfl

section
variable {d M : ℕ} {g : Half → Word} {nan : Word} (hg : Decodes d M g nan) {h : Half} (hn : halfIsNan h = false)
include hg hn

theorem Decodes.magnitude_fields :
    ((g h).extractLsb' 0 31).toNat / 2 ^ M = decodedExp d (h.extractLsb' 0 15).toNat ∧
      ((g h).extractLsb' 0 31).toNat % 2 ^ M = 2 ^ (M - 10) * decodedFrac (h.extractLsb' 0 15).toNat := by
  have hc : (h.extractLsb' 0 15).toNat ≤ 0x7C00 := not_lt.mp fun hlt => by simp [(halfIsNan_iff h).mpr hlt] at hn
  have hfrac := hg.format.mantissa_lt (decodedFrac_lt (h.extractLsb' 0 15).toNat)
  rw [hg.magnitude_bits hn, decodedBits_eq_fields d M hc, Nat.mul_add_div (Nat.two_pow_pos M), Nat.div_eq_of_lt hfrac,
    Nat.mul_add_mod, Nat.mod_eq_of_lt hfrac]
  exact ⟨Nat.add_zero _, rfl⟩

end

section
variable {h : Half} (hn : halfIsNan h = false)
include hn

theorem singleExp_h2s : singleExp (h2s h) = decodedExp 112 (h.extractLsb' 0 15).toNat :=
  (singleExp_eq _).trans (h2s_decodes.magnitude_fields hn).1

theorem singleMant_h2s : singleMant (h2s h) = 2 ^ 13 * decodedFrac (h.extractLsb' 0 15).toNat :=
  (singleMant_eq _).trans (h2s_decodes.magnitude_fields hn).2

theorem wordSign_h2s : wordSign (h2s h) = halfSign h := (h2s_decodes.sign_symmetric hn).2

theorem doubleExp_h2dHi (nanHi : Word) : doubleExp (h2dHi nanHi h) = decodedExp 1008 (h.extractLsb' 0 15).toNat :=
  (doubleExp_eq _).trans ((h2dHi_decodes nanHi).magnitude_fields hn).1

theorem doubleMantHi_h2dHi (nanHi : Word) :
    doubleMantHi (h2dHi nanHi h) = 2 ^ 10 * decodedFrac (h.extractLsb' 0 15).toNat :=
  (doubleMantHi_eq _).trans ((h2dHi_decodes nanHi).magnitude_fields hn).2

theorem wordSign_h2dHi (nanHi : Word) : wordSign (h2dHi nanHi h) = halfSign h :=
  ((h2dHi_decodes nanHi).sign_symmetric hn).2

end

/-! ### The classes of H2S (43 R162 to R166) -/

theorem half_magnitude_eq (h : Half) : (h.extractLsb' 0 15).toNat = 1024 * halfExp h + halfMant h := by
  rw [halfExp_eq, halfMant_eq, Nat.div_add_mod]

theorem halfMant_lt (h : Half) : halfMant h < 1024 := (h.extractLsb' 0 10).isLt

theorem halfIsNan_of_halfExp_ne {h : Half} (he : halfExp h ≠ 31) : halfIsNan h = false := by
  simp [halfIsNan, he]

theorem halfIsNan_of_halfMant_eq_zero {h : Half} (hm : halfMant h = 0) : halfIsNan h = false := by
  simp [halfIsNan, hm]

theorem decodedExp_denormal (d : ℕ) {m : ℕ} (h0 : m ≠ 0) (hm : m < 1024) : decodedExp d m = d - 9 + Nat.log2 m := by
  rw [decodedExp, if_neg h0, if_pos hm]

/-- What is left of a denormal below its most significant bit, moved up to the top of the mantissa (43 R164). -/
theorem decodedFrac_denormal {m : ℕ} (h0 : m ≠ 0) (hm : m < 1024) :
    decodedFrac m = (m - 2 ^ Nat.log2 m) * 2 ^ (10 - Nat.log2 m) := by
  obtain ⟨hp, -, -⟩ := shifted_denormal_bounds h0 hm
  have hpow : 2 ^ Nat.log2 m * 2 ^ (10 - Nat.log2 m) = 1024 := by
    rw [← pow_add, Nat.add_sub_cancel' (by omega)]
    rfl
  rw [decodedFrac, if_neg h0, if_pos hm, Nat.sub_mul, hpow, mul_comm]

theorem decodedExp_normal (d : ℕ) {e m : ℕ} (hl : 1 ≤ e) (hu : e ≤ 30) (hm : m < 1024) :
    decodedExp d (1024 * e + m) = d + e := by
  rw [decodedExp, if_neg (by omega), if_neg (by omega), if_pos (by omega)]
  omega

theorem decodedFrac_normal {e m : ℕ} (hl : 1 ≤ e) (hm : m < 1024) : decodedFrac (1024 * e + m) = m := by
  rw [decodedFrac, if_neg (by omega), if_neg (by omega)]
  omega

/-- Settles O52: a zero and an infinity by their decoded bits, a denormal and a normal half field by field. -/
theorem h2SByClass : Obligations.H2SByClass := by
  unfold Obligations.H2SByClass
  intro h
  have hc := half_magnitude_eq h
  have hm := halfMant_lt h
  refine ⟨fun he h0 => ?zero, fun he h0 => ?denormal, fun hl hu => ?normal, fun he h0 => ?infinity, fun he h0 => ?nan⟩
  case zero =>
    rw [h2s_decodes.of_not_nan (halfIsNan_of_halfMant_eq_zero h0), hc, he, h0]
    rfl
  case denormal =>
    have hn : halfIsNan h = false := halfIsNan_of_halfExp_ne (by omega)
    rw [he, Nat.mul_zero, Nat.zero_add] at hc
    refine ⟨wordSign_h2s hn, ?_, ?_⟩
    · rw [singleExp_h2s hn, hc, decodedExp_denormal 112 h0 hm]
    · rw [singleMant_h2s hn, hc, decodedFrac_denormal h0 hm, mul_comm]
  case normal =>
    have hn : halfIsNan h = false := halfIsNan_of_halfExp_ne (by omega)
    refine ⟨wordSign_h2s hn, ?_, ?_⟩
    · rw [singleExp_h2s hn, hc, decodedExp_normal 112 hl hu hm, Nat.add_comm]
    · rw [singleMant_h2s hn, hc, decodedFrac_normal hl hm, mul_comm]
  case infinity =>
    rw [h2s_decodes.of_not_nan (halfIsNan_of_halfMant_eq_zero h0), hc, he, h0]
    rfl
  case nan => exact h2s_decodes.of_nan (by simp [halfIsNan, he, h0])

/-! ### H2D against H2S (44 R186) -/

/-- The exponent fields of two formats for one half: both 0, both all ones, or apart by the difference of the biases. -/
theorem decodedExp_cases {d d' c : ℕ} (hd : 11 ≤ d) (hd' : 11 ≤ d') :
    (decodedExp d c = 0 ∧ decodedExp d' c = 0) ∨
    (decodedExp d c = 2 * d + 31 ∧ decodedExp d' c = 2 * d' + 31) ∨
    (0 < decodedExp d c ∧ decodedExp d c < 2 * d + 31 ∧ decodedExp d c + d' = decodedExp d' c + d) := by
  simp only [decodedExp]
  split_ifs with h0 hden hnorm
  · exact .inl ⟨rfl, rfl⟩
  · have hp := (shifted_denormal_bounds h0 hden).1
    exact .inr (.inr (by omega))
  · exact .inr (.inr (by omega))
  · exact .inr (.inl ⟨rfl, rfl⟩)

/-- Settles O56: both words are the decoded fields of one half, whose fraction does not depend on the format. -/
theorem h2DAgreesWithH2S : Obligations.H2DAgreesWithH2S := by
  unfold Obligations.H2DAgreesWithH2S
  intro nanHi h hn
  have hexp := decodedExp_cases (d := 112) (d' := 1008) (c := (h.extractLsb' 0 15).toNat) (by norm_num) (by norm_num)
  rw [← singleExp_h2s hn, ← doubleExp_h2dHi hn nanHi] at hexp
  simp only [h2d]
  refine ⟨?sign, ?mantissa, fun hz => ?zero, fun hones => ?infinity, fun hz hones => ?normal⟩
  case sign => rw [wordSign_h2dHi hn, wordSign_h2s hn]
  case mantissa =>
    rw [doubleMant, doubleMantHi_h2dHi hn, singleMant_h2s hn, BitVec.toNat_zero]
    ring
  case zero => omega
  case infinity => omega
  case normal => omega

end Sys2Proof.Machine
end

section
/-! PROOFS. The decoder H2D (44 R180 to R190): the doubles that `CVT.H2D` stores, a buffer of halves through doubles and back,
and the classes of H2D. -/

namespace Sys2Proof.Machine

/-! ### The command (44 R190) -/

section
variable (p : Platform) (hhf : Bool) (m : Memory) (s t : Nat)

/-- The low word is written after the high word and has no byte in common with it (20_memory R57). -/
theorem elementH2D_hiWord : memRead4 p.byteOrder (elementH2D p hhf m s t) (hiAddr hhf t) =
    (h2d p.h2dNanHi (memRead2 p.byteOrder m s)).1 := by
  rw [elementH2D, memRead4_congr p.byteOrder fun b hb =>
    read_memWrite4_outside _ _ _ _ (hiAddr_loAddr_disjoint hhf t b hb), memRead4_memWrite4]

theorem elementH2D_loWord : memRead4 p.byteOrder (elementH2D p hhf m s t) (loAddr hhf t) = 0x00000000#32 :=
  memRead4_memWrite4 _ _ _ _

end

/-- Settles O27: both words of destination element `i` lie in it, and read as the pass for that element wrote them. -/
theorem cvtH2DConvertsEveryElement : Obligations.CvtH2DConvertsEveryElement := by
  unfold Obligations.CvtH2DConvertsEveryElement
  intro s h
  obtain ⟨t, ht, hregs, helements, hframe⟩ := convertCommand_converts elementH2D_frame h
  refine ⟨t, ht, hregs, fun i hi => ?_, hframe⟩
  have hword {a : Nat} (ha : elementAddr s.dst.value 8 i ≤ a ∧ a + 4 ≤ elementAddr s.dst.value 8 i + 8) :
      memRead4 s.platform.byteOrder t.mem a = memRead4 s.platform.byteOrder
        (elementH2D s.platform (capHhf (lazyCap s)) s.mem (elementAddr s.src.value 2 i) (elementAddr s.dst.value 8 i)) a :=
    memRead4_congr _ fun b hb => helements i hi b ⟨ha.1.trans hb.1, hb.2.trans_le ha.2⟩
  exact ⟨(hword (hiAddr_bounds _ _)).trans (elementH2D_hiWord _ _ _ _ _),
    (hword (loAddr_bounds _ _)).trans (elementH2D_loWord _ _ _ _ _)⟩

theorem Platform.isNanHighWord_of_wellFormed {p : Platform} (h : p.wellFormed = true) :
    isNanHighWord p.h2dNanHi = true :=
  (Bool.and_eq_true_iff.mp h).2

/-- Settles O35: the second command reads, by the same `CAP.HHF`, the high words that the first one stored, and each half
survives the round trip. -/
theorem bufferRoundTripThroughDoubles : Obligations.BufferRoundTripThroughDoubles := by
  unfold Obligations.BufferRoundTripThroughDoubles
  intro s c hplatform_wf hwiden hnarrow
  obtain ⟨t, ht, hregs, hdoubles, -⟩ := cvtH2DConvertsEveryElement s hwiden
  have hready : CvtReady .d2h { t with src := s.dst, dst := ⟨c, true⟩ } := by
    rw [hregs]
    exact hnarrow.after_command 0#1 t.mem
  obtain ⟨u, hu, -, hhalves, -⟩ := cvtD2HConvertsEveryElement _ hready
  refine ⟨t, u, ht, hu, fun i hi => ?_⟩
  have hplatform : t.platform = s.platform := by rw [hregs]
  have hcount : t.count = s.count := by rw [hregs]
  have hcap : lazyCap { t with src := s.dst, dst := ⟨c, true⟩ } = lazyCap s := lazyCap_of_cap_eq (by rw [hregs])
  have hhalf := hhalves i (by rwa [hcount])
  rw [hcap] at hhalf
  simp only [hplatform, (hdoubles i hi).1] at hhalf
  rw [hhalf, halvesSurviveTheRoundTrip.2 _ _ (Platform.isNanHighWord_of_wellFormed hplatform_wf)]

/-! ### The classes of H2D (44 R180 to R185) -/

/-- Settles O53: a zero and an infinity by the decoded bits of the high word, a denormal and a normal half by its fields. -/
theorem h2DByClass : Obligations.H2DByClass := by
  unfold Obligations.H2DByClass
  intro nanHi h
  have hg := h2dHi_decodes nanHi
  have hc := half_magnitude_eq h
  have hm := halfMant_lt h
  simp only [h2d, true_and]
  refine ⟨fun he h0 => ?zero, fun he h0 => ?denormal, fun hl hu => ?normal, fun he h0 => ?infinity, fun he h0 => ?nan⟩
  case zero =>
    rw [hg.of_not_nan (halfIsNan_of_halfMant_eq_zero h0), hc, he, h0]
    rfl
  case denormal =>
    have hn : halfIsNan h = false := halfIsNan_of_halfExp_ne (by omega)
    rw [he, Nat.mul_zero, Nat.zero_add] at hc
    refine ⟨wordSign_h2dHi hn nanHi, ?_, ?_⟩
    · rw [doubleExp_h2dHi hn, hc, decodedExp_denormal 1008 h0 hm]
    · rw [doubleMantHi_h2dHi hn, hc, decodedFrac_denormal h0 hm, mul_comm]
  case normal =>
    have hn : halfIsNan h = false := halfIsNan_of_halfExp_ne (by omega)
    refine ⟨wordSign_h2dHi hn nanHi, ?_, ?_⟩
    · rw [doubleExp_h2dHi hn, hc, decodedExp_normal 1008 hl hu hm, Nat.add_comm]
    · rw [doubleMantHi_h2dHi hn, hc, decodedFrac_normal hl hm, mul_comm]
  case infinity =>
    rw [hg.of_not_nan (halfIsNan_of_halfMant_eq_zero h0), hc, he, h0]
    rfl
  case nan => exact hg.of_nan (by simp [halfIsNan, he, h0])

end Sys2Proof.Machine
end

section
/-! PROOFS. The numeric properties of widening (45 R205), from the fields of a decoded half: the magnitude, the infinities, that
no two halves widen to one pattern, and the bits that stay 0; and the one NaN of each conversion (45 R214). -/

namespace Sys2Proof.Machine

/-! ### The magnitude of a decoded half -/

/-- The magnitude of a pattern that is no zero and no denormal, and whose mantissa bits below the top ten are 0; the bias
exceeds the bias of a half by `d`. -/
theorem magnitude_of_top_fraction {E M d e : ℕ} (f : ℕ) (hE : 2 ^ (E - 1) = d + 16) (hM : 10 ≤ M) (he : e ≠ 0) :
    magnitude E M e (2 ^ (M - 10) * f) = (1024 + f) * 2 ^ ((e : ℤ) - d - 25) := by
  have hbias : (2 : ℤ) ^ (E - 1) = d + 16 := by exact_mod_cast hE
  obtain ⟨k, rfl⟩ : ∃ k, M = k + 10 := ⟨M - 10, by omega⟩
  have hscale : (2 : ℚ) ^ ((e : ℤ) - (d + 16 - 1) - (k + 10 : ℕ)) * 2 ^ k = 2 ^ ((e : ℤ) - d - 25) := by
    rw [← zpow_natCast, ← zpow_add₀ (by norm_num)]
    congr 1
    push_cast
    ring
  rw [magnitude, if_neg he, hbias, ← hscale, Nat.add_sub_cancel]
  push_cast
  ring

/-- Decoding keeps the magnitude: the leading bit of a denormal becomes the implicit one, and the exponent field makes up for
the shift (43 R164, 44 R184). -/
theorem magnitude_decoded {E M d c : ℕ} (hE : 2 ^ (E - 1) = d + 16) (hd : 11 ≤ d) (hM : 10 ≤ M) (hc : c < 0x7C00) :
    magnitude E M (decodedExp d c) (2 ^ (M - 10) * decodedFrac c) = gridValue c := by
  rcases Nat.eq_zero_or_pos c with rfl | hpos
  · simp [decodedExp, decodedFrac, magnitude, gridValue]
  rcases Nat.lt_or_ge c 1024 with hden | hnorm
  · obtain ⟨hp, hl, -⟩ := shifted_denormal_bounds hpos.ne' hden
    have hfrac : (1024 + decodedFrac c : ℚ) = 2 ^ (10 - Nat.log2 c) * c := by
      rw [decodedFrac, if_neg hpos.ne', if_pos hden]
      exact_mod_cast Nat.add_sub_cancel' hl
    have hscale : (2 : ℚ) ^ (10 - Nat.log2 c) * 2 ^ ((d - 9 + Nat.log2 c : ℕ) - d - 25 : ℤ) = 2 ^ (-24 : ℤ) := by
      rw [← zpow_natCast, ← zpow_add₀ (by norm_num)]
      congr 1
      omega
    rw [decodedExp_denormal d hpos.ne' hden, magnitude_of_top_fraction _ hE hM (by omega), hfrac,
      gridValue_denormal hden.le, ← hscale]
    ring
  · have hm : c % 1024 < 1024 := Nat.mod_lt _ (by norm_num)
    rw [← Nat.div_add_mod c 1024, decodedExp_normal d (by omega) (by omega) hm, decodedFrac_normal (by omega) hm,
      magnitude_of_top_fraction _ hE hM (by omega), gridValue_normal (by omega) hm.le]
    congr 2
    push_cast
    ring

theorem halfMagnitude_eq (h : Half) : halfMagnitude h = gridValue (h.extractLsb' 0 15).toNat := by
  rw [halfMagnitude, gridValue, halfExp_eq, halfMant_eq]

/-! ### The fields that decoding can answer -/

theorem magnitude_bits_lt_of_halfExp_ne {h : Half} (he : halfExp h ≠ 31) : (h.extractLsb' 0 15).toNat < 0x7C00 := by
  have := (h.extractLsb' 0 15).isLt
  rw [halfExp_eq] at he
  omega

theorem magnitude_bits_le_of_not_nan {h : Half} (hn : halfIsNan h = false) : (h.extractLsb' 0 15).toNat ≤ 0x7C00 := by
  rwa [← not_lt, ← halfIsNan_iff, Bool.not_eq_true]

theorem magnitude_bits_of_inf {h : Half} (hi : halfIsInf h = true) : (h.extractLsb' 0 15).toNat = 0x7C00 := by
  obtain ⟨he, hm⟩ : halfExp h = 31 ∧ halfMant h = 0 := by simpa [halfIsInf] using hi
  rw [half_magnitude_eq, he, hm]

theorem halfIsNan_of_inf {h : Half} (hi : halfIsInf h = true) : halfIsNan h = false := by
  rw [← Bool.not_eq_true, halfIsNan_iff, magnitude_bits_of_inf hi]
  exact lt_irrefl _

theorem decodedExp_lt {d c : ℕ} (hd : 11 ≤ d) (hc : c < 0x7C00) : decodedExp d c < 2 * d + 31 := by
  rw [decodedExp]
  split_ifs with h0 hden
  · omega
  · have := (shifted_denormal_bounds h0 hden).1
    omega
  · omega

/-- A decoded exponent field is 0 for the zeros alone, so no result is a denormal. -/
theorem decodedFrac_eq_zero_of_decodedExp {d c : ℕ} (hd : 11 ≤ d) (h : decodedExp d c = 0) : decodedFrac c = 0 := by
  have hc : c = 0 := by
    rw [decodedExp] at h
    split_ifs at h <;> omega
  rw [hc]
  rfl

/-- The low bits of a field are 0 when its value is a multiple of their power of 2. -/
theorem low_bits_eq_zero {w n k : ℕ} {x : BitVec w} (h : n ≤ k) (hdvd : 2 ^ n ∣ (x.extractLsb' 0 k).toNat) :
    x.extractLsb' 0 n = 0#n := by
  apply BitVec.eq_of_toNat_eq
  rw [low_field_toNat x h, Nat.mod_eq_zero_of_dvd hdvd, BitVec.toNat_zero]

/-- No two halves decode to the same word, NaNs aside: its sign is theirs, and its magnitude bits encode back to theirs. -/
theorem Decodes.injective {d M : ℕ} {g : Half → Word} {nan : Word} (hg : Decodes d M g nan) {h h' : Half}
    (hn : halfIsNan h = false) (hn' : halfIsNan h' = false) (heq : g h = g h') : h = h' := by
  have hsign : h.extractLsb' 15 1 = h'.extractLsb' 15 1 := by
    have := congrArg (BitVec.extractLsb' 31 1) heq
    rwa [hg.of_not_nan hn, hg.of_not_nan hn', BitVec.extractLsb'_append_eq_left,
      BitVec.extractLsb'_append_eq_left] at this
  have hmag : h.extractLsb' 0 15 = h'.extractLsb' 0 15 := by
    apply BitVec.eq_of_toNat_eq
    rw [← encodedBits_decodedBits hg.format (magnitude_bits_le_of_not_nan hn), ← hg.magnitude_bits hn, heq,
      hg.magnitude_bits hn', encodedBits_decodedBits hg.format (magnitude_bits_le_of_not_nan hn')]
  have hfields (x : Half) : x.extractLsb' 15 1 ++ x.extractLsb' 0 15 = x := BitVec.extractLsb'_append_extractLsb' (w := 1)
  rw [← hfields h, hsign, hmag, hfields]

/-! ### Widening is exact -/

/-- Settles O54: the decoded fields denote the magnitude that the half's bits 14:0 stand for, and their ten fraction bits leave
the low 13 bits 0; the NaN is one pattern. -/
theorem wideningToSinglesIsExact : Obligations.WideningToSinglesIsExact := by
  unfold Obligations.WideningToSinglesIsExact
  refine ⟨fun h he => ?finite, fun h hi => ?infinity, fun h h' => h2s_decodes.injective, fun h => ?zeros⟩
  case finite =>
    have hn := halfIsNan_of_halfExp_ne he
    have hc := magnitude_bits_lt_of_halfExp_ne he
    refine ⟨?_, wordSign_h2s hn, ?_⟩
    · rw [singleExp_h2s hn]
      exact (decodedExp_lt (by norm_num) hc).ne
    · rw [singleMagnitude, singleExp_h2s hn, singleMant_h2s hn, halfMagnitude_eq]
      exact magnitude_decoded (by norm_num) (by norm_num) (by norm_num) hc
  case infinity =>
    have hn := halfIsNan_of_inf hi
    rw [singleExp_h2s hn, singleMant_h2s hn, magnitude_bits_of_inf hi]
    exact ⟨wordSign_h2s hn, rfl, rfl⟩
  case zeros =>
    by_cases hn : halfIsNan h = true
    · rw [h2s_decodes.of_nan hn]
      decide
    · rw [Bool.not_eq_true] at hn
      refine ⟨low_bits_eq_zero (k := 23) (by norm_num) (Dvd.intro _ (singleMant_h2s hn).symm), fun hz => ?_⟩
      rw [singleExp_h2s hn] at hz
      rw [singleMant_h2s hn, decodedFrac_eq_zero_of_decodedExp (by norm_num) hz, Nat.mul_zero]

section
variable {h : Half} (hn : halfIsNan h = false) (nanHi : Word)
include hn

theorem wordSign_h2d : wordSign (h2d nanHi h).1 = halfSign h := wordSign_h2dHi hn nanHi

theorem doubleExp_h2d : doubleExp (h2d nanHi h).1 = decodedExp 1008 (h.extractLsb' 0 15).toNat := doubleExp_h2dHi hn nanHi

theorem doubleMantHi_h2d : doubleMantHi (h2d nanHi h).1 = 2 ^ 10 * decodedFrac (h.extractLsb' 0 15).toNat :=
  doubleMantHi_h2dHi hn nanHi

/-- The low word of every result is 0 (44 R180). -/
theorem doubleMant_h2d :
    doubleMant (h2d nanHi h).1 (h2d nanHi h).2 = 2 ^ 42 * decodedFrac (h.extractLsb' 0 15).toNat := by
  rw [doubleMant, doubleMantHi_h2d hn, h2d, BitVec.toNat_zero]
  ring

end

/-- Settles O55: as O54, with the ten fraction bits at the top of the 52; the low word adds nothing to the mantissa. -/
theorem wideningToDoublesIsExact : Obligations.WideningToDoublesIsExact := by
  unfold Obligations.WideningToDoublesIsExact
  refine ⟨fun nanHi h he => ?finite, fun nanHi h hi => ?infinity, fun nanHi h h' hn hn' heq => ?injective,
    fun nanHi h hn => ?zeros⟩
  case finite =>
    have hn := halfIsNan_of_halfExp_ne he
    have hc := magnitude_bits_lt_of_halfExp_ne he
    refine ⟨?_, wordSign_h2d hn nanHi, ?_⟩
    · rw [doubleExp_h2d hn]
      exact (decodedExp_lt (by norm_num) hc).ne
    · rw [doubleMagnitude, doubleExp_h2d hn, doubleMant_h2d hn, halfMagnitude_eq]
      exact magnitude_decoded (by norm_num) (by norm_num) (by norm_num) hc
  case infinity =>
    have hn := halfIsNan_of_inf hi
    rw [doubleExp_h2d hn, doubleMant_h2d hn, magnitude_bits_of_inf hi]
    exact ⟨wordSign_h2d hn nanHi, rfl, rfl⟩
  case injective => exact (h2dHi_decodes nanHi).injective hn hn' (congrArg Prod.fst heq)
  case zeros =>
    refine ⟨low_bits_eq_zero (k := 20) (by norm_num) (Dvd.intro _ (doubleMantHi_h2d hn nanHi).symm), fun hz => ?_⟩
    rw [doubleExp_h2d hn] at hz
    rw [doubleMantHi_h2d hn, decodedFrac_eq_zero_of_decodedExp (by norm_num) hz, Nat.mul_zero]

/-! ### The one NaN of each conversion -/

/-- Settles O60: a NaN by the NaN of its conversion; a double NaN with a zero mantissa in the high word is above the overflow
threshold and no NaN to the encoder. -/
theorem nansAreCanonical : Obligations.NansAreCanonical := by
  unfold Obligations.NansAreCanonical
  refine ⟨fun x => s2h_encodes.of_nan, fun hi => d2h_encodes.of_nan, fun hi lo he hm _ => ?_,
    fun h => h2s_decodes.of_nan, fun nanHi h hn => Prod.ext ((h2dHi_decodes nanHi).of_nan hn) rfl⟩
  have hbits := doubleExp_eq hi
  exact (overflowThresholds.2 hi).1.mpr ⟨by simp [doubleHiIsNan, hm], by omega⟩

end Sys2Proof.Machine
end

section
/-! PROOFS. Faults and the one error of the block (60 R231, R236, R237): no command faults, a failing command is precise, and an
unsupported host stays unsupported until the next reset. -/

namespace Sys2Proof.Machine

/-! ### A failing command -/

/-- `CAPCHK` ends with a status, and a `CVT` command with a status or without a meaning. -/
theorem exec_no_fault (i : Instr) (s : State) (r : Fault) : exec i s ≠ .fault r := by
  rcases instr_cases i with rfl | ⟨k, dp, sp, rfl⟩
  · exact nofun
  · obtain ⟨f, -, hexec⟩ := exec_cvt k
    rw [hexec]
    exact convertCommand_no_fault f k dp sp s r

/-- A command that ends with `STATUS` = 1 found the host unsupported (40 R103, 60 R231). -/
theorem exec_status_one {i : Instr} {s t : State} (h : exec i s = .next t) (hst : t.status = 1#1) :
    capIeee (lazyCap s) = false := by
  rw [← exec_next_cap h]
  obtain ⟨-, hstatus, -⟩ := registerRulesOfEveryStep.2.2 i s t h
  exact hstatus.mp hst

/-- Settles O30: a command that reports the error is the failing command of an unsupported host, which writes `CAP` and
`STATUS` only. -/
theorem noCommandTraps : Obligations.NoCommandTraps := by
  unfold Obligations.NoCommandTraps
  refine ⟨exec_no_fault, fun i s t h hst => ⟨?_, (lazyCheckIsMadeOnce i s t h).2⟩⟩
  cases (unsupportedHostFailsEveryCommand i s (exec_status_one h hst)).symm.trans h
  rfl

/-! ### An unsupported host -/

/-- On a host found unsupported the check is not made again, and every command fails (40 R102, R103). -/
theorem exec_of_cap_unsupported {s : State} (h : s.cap = 0b001#3) (i : Instr) :
    exec i s = .next { s with status := 1#1 } := by
  have hc : lazyCap s = s.cap := lazyCap_of_valid (by rw [h]; rfl)
  have hi : capIeee (lazyCap s) = false := by rw [hc, h]; rfl
  rw [unsupportedHostFailsEveryCommand i s hi, hc]

/-- No host action, the issue of a command included, adds or removes an action still to happen. -/
theorem hostAct_keeps_pending {act : HostAction} {s t : State} (h : hostAct act s = .next t) :
    t.pending = s.pending := by
  rcases hostAct_next h with ⟨v, i, -, hx⟩ | ⟨p, -, rfl⟩ | ⟨a, b, -, -, rfl⟩ | ⟨-, -, -, -, hp, -⟩
  · rw [(exec_next hx).1]
  · rfl
  · rfl
  · exact hp

/-- A step takes the next pending action and leaves the later ones. -/
theorem step_pending {s t : State} (h : step s = .next t) : t.pending = s.pending.tail := by
  rcases stepHost_next h with ⟨hp, rfl⟩ | ⟨act, rest, hp, ha⟩
  · rw [hp]; rfl
  · rw [hp]; exact hostAct_keeps_pending ha

/-- A valid `CAP` lasts as long as no reset is among the actions of the run (70 R261). -/
theorem runsTo_keeps_valid_cap {n : Nat} {s t : State} (hv : s.cap.getLsbD 0 = true)
    (hno : ∀ p, HostAction.reset p ∉ s.pending) (h : RunsTo n s t) : t.cap = s.cap := by
  induction n generalizing s with
  | zero => cases h; rfl
  | succ n ih =>
    obtain ⟨u, hstep, hrun⟩ := runsTo_succ.mp h
    have hcap : u.cap = s.cap :=
      registerRulesOfEveryStep.1 s u hstep (fun p rest hp => hno p (hp ▸ List.mem_cons_self)) hv
    have hnou : ∀ p, HostAction.reset p ∉ u.pending := fun p hp =>
      hno p (List.mem_of_mem_tail (step_pending hstep ▸ hp))
    exact (ih (hcap ▸ hv) hnou hrun).trans hcap

/-- Settles O20: an unsupported `CAP` is valid, so a run without a reset keeps it, and with it every command fails. -/
theorem unsupportedIsStickyUntilReset : Obligations.UnsupportedIsStickyUntilReset := by
  unfold Obligations.UnsupportedIsStickyUntilReset
  intro n s t hcap hno hrun
  have ht : t.cap = 0b001#3 := (runsTo_keeps_valid_cap (by rw [hcap]; rfl) hno hrun).trans hcap
  exact ⟨ht, exec_of_cap_unsupported ht⟩

end Sys2Proof.Machine
end
